-- ==== Sys2Proof/Word.lean ====
section
/-! DEFINITION. The word and byte types of BF-CORE (00_scope.md rules R5, R7, R8): unsigned 32-bit words with
wrap-around addition and exclusive-or, which are BitVec's own `+` and `^^^`. -/

namespace Sys2Proof

/-- A 32-bit word: an integer in 0 .. 2^32 - 1 (rule R7). -/
abbrev Word := BitVec 32

/-- A byte of a byte sequence of the host (rule R9). -/
abbrev Byte := BitVec 8

end Sys2Proof
end

