-- ==== Sys2Proof/Syntax.lean ====
section
/-! DEFINITION. The commands of BF-CORE: one constructor of `Instr` per row of the opcode map (30_encoding.md rule
R73), the opcode names, the CommandError codes (60_exceptions.md rule R200) and the transaction (rule R70). -/

namespace Sys2Proof

/-- The opcode names of rule R73, in the order of their OP values 0x0 .. 0xD. -/
inductive Op where
  | nop | init | wipe | ldblk | xblk | enc | feval | xorp | wrp | stp | wrs | sts | rdp | rds
  deriving DecidableEq, Repr

/-- One row of the opcode map of rule R73. -/
structure OpRow where
  /-- The value of CMD[31:28]. -/
  code : BitVec 4
  /-- "uses BOX". -/
  usesBox : Bool
  /-- "uses IDX, legal range": the highest legal IDX, or none where the command does not use IDX. -/
  maxIdx : Option Nat
  /-- A pair store, whose IDX must be even (20_memory.md rule R54). -/
  pair : Bool
  deriving DecidableEq, Repr

/-- A command with the operands its rule reads. BOX and IDX are the raw fields of CMD (rule R71: 2 and 8 bits), so
that a command whose IDX is illegal is a term too; an operand word a rule does not read is no operand (rule R72). -/
inductive Instr where
  | nop
  | init
  | wipe
  | ldblk (a b : Word)
  | xblk (a b : Word)
  | enc
  | feval (a : Word)
  | xorp (i : BitVec 8) (a : Word)
  | wrp (i : BitVec 8) (a : Word)
  | stp (i : BitVec 8)
  | wrs (k : BitVec 2) (i : BitVec 8) (a : Word)
  | sts (k : BitVec 2) (i : BitVec 8)
  | rdp (i : BitVec 8)
  | rds (k : BitVec 2) (i : BitVec 8)
  deriving DecidableEq, Repr

/-- The CommandError codes of 60_exceptions.md rule R200, code 0 (NONE) first. -/
inductive ErrorCode where
  /-- Code 0, NONE: the value of ECODE while ERR = 0. -/
  | noError
  /-- Code 1, ILLEGAL_OPCODE. -/
  | illegalOpcode
  /-- Code 2, RESERVED_FIELD. -/
  | reservedField
  /-- Code 3, INDEX_RANGE. -/
  | indexRange
  /-- Code 4, INDEX_ALIGN. -/
  | indexAlign
  deriving DecidableEq, Repr

/-- A command transaction `(CMD, A, B)` (rule R70). -/
structure Transaction where
  cmd : Word
  a : Word
  b : Word
  deriving DecidableEq, Repr

end Sys2Proof
end

