-- ==== Sys2Proof/WellFormed.lean ====
section
/-! DEFINITION. When a command's operands are legal (30_encoding.md rule R73, "uses IDX, legal range"; 20_memory.md
rule R54, alignment of pair stores). BOX is legal at every value of its two bits. -/

namespace Sys2Proof

/-- Every operand of the command is in its legal range (rule R73). -/
def Instr.wellFormed : Instr → Bool
  | .nop => true
  | .init => true
  | .wipe => true
  | .ldblk _ _ => true
  | .xblk _ _ => true
  | .enc => true
  | .feval _ => true
  | .xorp i _ => decide (i.toNat ≤ 17)
  | .wrp i _ => decide (i.toNat ≤ 17)
  | .stp i => decide (i.toNat ≤ 16) && decide (i.toNat % 2 = 0)
  | .wrs _ _ _ => true
  | .sts _ i => decide (i.toNat % 2 = 0)
  | .rdp i => decide (i.toNat ≤ 17)
  | .rds _ _ => true

end Sys2Proof
end

