-- ==== Sys2Proof/Decode.lean ====
section
/-! DEFINITION. Decoding (30_encoding.md rules R71 to R76, 60_exceptions.md rule R201) and, after it, encoding
(rules R71, R73, R78). The decoder is total on all transactions: it answers a command or the one code its CMD fails
with. -/

namespace Sys2Proof

/-- OP = CMD[31:28] (rule R71). -/
def opField (cmd : Word) : BitVec 4 := cmd.extractLsb' 28 4

/-- RSV = CMD[27:10] (rule R71). -/
def rsvField (cmd : Word) : BitVec 18 := cmd.extractLsb' 10 18

/-- BOX = CMD[9:8] (rule R71). -/
def boxField (cmd : Word) : BitVec 2 := cmd.extractLsb' 8 2

/-- IDX = CMD[7:0] (rule R71). -/
def idxField (cmd : Word) : BitVec 8 := cmd.extractLsb' 0 8

/-- The opcode map, row by row (rule R73): OP, uses BOX, highest legal IDX, pair store. -/
def Op.row : Op → OpRow
  | .nop   => ⟨0x0, false, none,     false⟩
  | .init  => ⟨0x1, false, none,     false⟩
  | .wipe  => ⟨0x2, false, none,     false⟩
  | .ldblk => ⟨0x3, false, none,     false⟩
  | .xblk  => ⟨0x4, false, none,     false⟩
  | .enc   => ⟨0x5, false, none,     false⟩
  | .feval => ⟨0x6, false, none,     false⟩
  | .xorp  => ⟨0x7, false, some 17,  false⟩
  | .wrp   => ⟨0x8, false, some 17,  false⟩
  | .stp   => ⟨0x9, false, some 16,  true⟩
  | .wrs   => ⟨0xA, true,  some 255, false⟩
  | .sts   => ⟨0xB, true,  some 255, true⟩
  | .rdp   => ⟨0xC, false, some 17,  false⟩
  | .rds   => ⟨0xD, true,  some 255, false⟩

/-- Every opcode name, in the order of rule R73. -/
def Op.all : List Op :=
  [.nop, .init, .wipe, .ldblk, .xblk, .enc, .feval, .xorp, .wrp, .stp, .wrs, .sts, .rdp, .rds]

/-- The opcode name of an OP value; none for the reserved 0xE and 0xF (rules R73, R75). -/
def Op.ofCode (c : BitVec 4) : Option Op := Op.all.find? fun o => o.row.code == c

/-- The part of Check that looks at a used IDX (60_exceptions.md rule R201, its last three tests): the range first,
then the alignment of a pair store. -/
def Op.checkIdx (o : Op) (idx : BitVec 8) : ErrorCode :=
  match o.row.maxIdx with
  | none => if idx.toNat ≠ 0 then .reservedField else .noError
  | some top =>
    if idx.toNat > top then .indexRange
    else if o.row.pair && idx.toNat % 2 == 1 then .indexAlign
    else .noError

/-- Check(CMD), the code of the first cause in the order of 60_exceptions.md rule R201. -/
def check (cmd : Word) : ErrorCode :=
  match Op.ofCode (opField cmd) with
  | none => .illegalOpcode
  | some o =>
    if rsvField cmd ≠ 0 then .reservedField
    else if boxField cmd ≠ 0 ∧ o.row.usesBox = false then .reservedField
    else o.checkIdx (idxField cmd)

/-- The command of an opcode with the fields and operand words its rule reads (rules R72, R76). -/
def Op.instr (o : Op) (box : BitVec 2) (idx : BitVec 8) (a b : Word) : Instr :=
  match o with
  | .nop => .nop
  | .init => .init
  | .wipe => .wipe
  | .ldblk => .ldblk a b
  | .xblk => .xblk a b
  | .enc => .enc
  | .feval => .feval a
  | .xorp => .xorp idx a
  | .wrp => .wrp idx a
  | .stp => .stp idx
  | .wrs => .wrs box idx a
  | .sts => .sts box idx
  | .rdp => .rdp idx
  | .rds => .rds box idx

/-- Decode a transaction (rules R76, R77): the code Check reports, or the command. -/
def decode (t : Transaction) : Except ErrorCode Instr :=
  match check t.cmd, Op.ofCode (opField t.cmd) with
  | .noError, some o => .ok (o.instr (boxField t.cmd) (idxField t.cmd) t.a t.b)
  | .noError, none => .error .illegalOpcode
  | code, _ => .error code

/-- The opcode name of a command. -/
def Instr.op : Instr → Op
  | .nop => .nop
  | .init => .init
  | .wipe => .wipe
  | .ldblk _ _ => .ldblk
  | .xblk _ _ => .xblk
  | .enc => .enc
  | .feval _ => .feval
  | .xorp _ _ => .xorp
  | .wrp _ _ => .wrp
  | .stp _ => .stp
  | .wrs _ _ _ => .wrs
  | .sts _ _ => .sts
  | .rdp _ => .rdp
  | .rds _ _ => .rds

/-- A CMD word from its fields, most significant first, with RSV = 0 (the pattern string of rule R71). -/
def cmdWord (o : Op) (box : BitVec 2) (idx : BitVec 8) : Word := o.row.code ++ 0#18 ++ box ++ idx

/-- Encode a command (rules R71, R73). A field the command does not use is 0 (rule R74), and an operand word it does
not name is 0 (rule R78). -/
def encode : Instr → Transaction
  | .nop => ⟨cmdWord .nop 0 0, 0, 0⟩
  | .init => ⟨cmdWord .init 0 0, 0, 0⟩
  | .wipe => ⟨cmdWord .wipe 0 0, 0, 0⟩
  | .ldblk a b => ⟨cmdWord .ldblk 0 0, a, b⟩
  | .xblk a b => ⟨cmdWord .xblk 0 0, a, b⟩
  | .enc => ⟨cmdWord .enc 0 0, 0, 0⟩
  | .feval a => ⟨cmdWord .feval 0 0, a, 0⟩
  | .xorp i a => ⟨cmdWord .xorp 0 i, a, 0⟩
  | .wrp i a => ⟨cmdWord .wrp 0 i, a, 0⟩
  | .stp i => ⟨cmdWord .stp 0 i, 0, 0⟩
  | .wrs k i a => ⟨cmdWord .wrs k i, a, 0⟩
  | .sts k i => ⟨cmdWord .sts k i, 0, 0⟩
  | .rdp i => ⟨cmdWord .rdp 0 i, 0, 0⟩
  | .rds k i => ⟨cmdWord .rds k i, 0, 0⟩

/-- The transaction whose bits are the lowest `nbits` bits of `w`: CMD first (bit 0 is CMD[0]), then A, then B (the
order of rule R70 and of a listing, rule R78). DESIGN CHOICE (safe): bits above the 96 of a transaction are dropped
(notes/assumptions/16.md). -/
def transactionOfBits (nbits w : Nat) : Transaction :=
  let bits := w % 2 ^ nbits
  ⟨BitVec.ofNat 32 bits, BitVec.ofNat 32 (bits / 2 ^ 32), BitVec.ofNat 32 (bits / 2 ^ 64)⟩

/-- What the decoder reads from the transaction whose bits are `w`. -/
def decodeTableWord (nbits w : Nat) : Option Instr :=
  match decode (transactionOfBits nbits w) with
  | .ok i => some i
  | .error _ => none

end Sys2Proof
end

