-- ==== Sys2Proof/Config.lean ====
section
/-! DEFINITION. What is fixed for BF-CORE (00_scope.md rule R5: "BF-CORE has no free implementation parameters"): its
sizes, said once as the types of its arrays and of their indices, and the host parameters of rule R6. The spec leaves
no value of the core open, so there is no free value here. -/

namespace Sys2Proof.Config

/-- The P-array: 18 words (rule R5). -/
abbrev PArray : Type := Vector Word 18

/-- One S-box: 256 words (rule R5). -/
abbrev SBox : Type := Vector Word 256

/-- The S-boxes: 4 boxes (rule R5). -/
abbrev SBoxes : Type := Vector SBox 4

/-- Longest key in bytes, before the NUL byte (rule R6). -/
abbrev maxKeyBytes : Nat := 72

/-- Lowest cost (rule R6). -/
abbrev minCost : Nat := 4

/-- Highest cost (rule R6). -/
abbrev maxCost : Nat := 31

/-- Encryption passes over the plaintext (rule R6; the count is the spec's general knowledge, 90_conflicts.md C3). -/
abbrev outputPasses : Nat := 64

/-- Bytes of the output (rule R6). -/
abbrev outputBytes : Nat := 23

end Sys2Proof.Config
end

