-- ==== Sys2Proof/Machine/State.lean ====
section
/-! DEFINITION. The state of one BF-CORE instance (10_state.md rule R20), the reasons a step could stop, and the
state after reset (rule R30). -/

namespace Sys2Proof.Machine

/-- What the host presents to the core for one step: the reset input (60_exceptions.md rule R205: "The only
asynchronous input is reset") and the command on the command port, if any (30_encoding.md rule R70). DESIGN CHOICE
(safe): the host's side of the interface as plain data (notes/assumptions/1.md). -/
structure HostInput where
  /-- Reset is asserted. -/
  reset : Bool
  /-- The command presented on the port. -/
  command : Option Transaction
  deriving DecidableEq, Repr

/-- The architectural state (rule R20: "exactly this tuple") and, last, the host's pending inputs. -/
structure State where
  /-- The P-array, P[0] .. P[17] (rule R21). -/
  p : Config.PArray
  /-- The S-boxes, S[0] .. S[3] of 256 words each (rule R22). -/
  sbox : Config.SBoxes
  /-- BL, the left half of the block register (rule R23). -/
  bl : Word
  /-- BR, the right half of the block register (rule R23). -/
  br : Word
  /-- Y, the result register (rule R24). -/
  y : Word
  /-- STATUS.ERR (rule R25). -/
  err : Bool
  /-- STATUS.ECODE (rule R25, codes of 60_exceptions.md rule R200). -/
  ecode : ErrorCode
  /-- The host's inputs of the coming steps, oldest first. The model's own field (notes/assumptions/1.md). -/
  port : List HostInput
  deriving DecidableEq, Repr

/-- The machine never stops with a fault: every command completes (30_encoding.md rule R77), and a CommandError is a
next state (60_exceptions.md rule R202). So this type has no constructor (notes/assumptions/15.md, safe). -/
inductive Fault where
  deriving DecidableEq, Repr

/-- Why a command has no meaning. No command of this model is refused (notes/assumptions/15.md). -/
inductive Refusal where
  /-- Raised by an arm of `exec` whose command has no meaning yet; no arm is left so (safe). -/
  | notModelled (mnemonic : String)
  deriving DecidableEq, Repr

/-- The state after reset (rule R30). The host has presented nothing yet (DESIGN CHOICE, notes/assumptions/1.md). -/
def State.reset : State where
  p := piP
  sbox := piS
  bl := 0
  br := 0
  y := 0
  err := false
  ecode := .noError
  port := []

end Sys2Proof.Machine
end

