-- ==== Sys2Proof/Machine/Flags.lean ====
section
/-! DEFINITION. The STATUS register (10_state.md rule R25) and the outputs the host reads (70_reset_and_hazards.md
rule R236). -/

namespace Sys2Proof.Machine

/-- The number of a CommandError code (60_exceptions.md rule R200). -/
def codeNumber : ErrorCode → BitVec 4
  | .noError => 0
  | .illegalOpcode => 1
  | .reservedField => 2
  | .indexRange => 3
  | .indexAlign => 4

/-- STATUS as the host reads it: ERR at bit 0, ECODE at [7:4], every other bit hardwired 0 (rule R25). -/
def State.statusWord (s : State) : Word := 0#24 ++ codeNumber s.ecode ++ 0#3 ++ BitVec.ofBool s.err

/-- The outputs of the core (10_state.md rule R20, "yes, as an output"). -/
inductive Output where
  | bl | br | y | status
  deriving DecidableEq, Repr

/-- `host v <- <output>`: what the host reads between two commands, with no effect on the state (rules R23 to R25,
R236). -/
def State.output (s : State) : Output → Word
  | .bl => s.bl
  | .br => s.br
  | .y => s.y
  | .status => s.statusWord

end Sys2Proof.Machine
end

