-- ==== Sys2Proof/Machine/Ops.lean ====
section
/-! DEFINITION. The named operations over the state: word accesses to P and S (20_memory.md rules R50, R53, R55),
the block and result registers, taking a CommandError (60_exceptions.md rule R202) with the way back from it beside
it (rule R204), and the one command step every meaning goes through (30_encoding.md rule R77). -/

namespace Sys2Proof.Machine

/-- P[i]. -/
def State.readP (s : State) (i : Fin 18) : Word := s.p[i]

/-- P[i] <- w. -/
def State.writeP (s : State) (i : Fin 18) (w : Word) : State := { s with p := s.p.set i w }

/-- S[k][j]. -/
def State.readS (s : State) (k : Fin 4) (j : Fin 256) : Word := s.sbox[k][j]

/-- S[k][j] <- w. -/
def State.writeS (s : State) (k : Fin 4) (j : Fin 256) (w : Word) : State :=
  { s with sbox := s.sbox.set k (s.sbox[k].set j w) }

/-- The index of the first word of pair n of P; the second is the next one (20_memory.md rule R53). -/
def pPairEven (n : Fin 9) : Fin 18 := ⟨2 * n.val, by omega⟩

/-- The index of the second word of pair n of P. -/
def pPairOdd (n : Fin 9) : Fin 18 := ⟨2 * n.val + 1, by omega⟩

/-- The index of the first word of pair n of an S-box. -/
def sPairEven (n : Fin 128) : Fin 256 := ⟨2 * n.val, by omega⟩

/-- The index of the second word of pair n of an S-box. -/
def sPairOdd (n : Fin 128) : Fin 256 := ⟨2 * n.val + 1, by omega⟩

/-- The pair store into P: BL to the even index, BR to the next odd one (rule R53). -/
def State.storePairP (s : State) (n : Fin 9) : State :=
  (s.writeP (pPairEven n) s.bl).writeP (pPairOdd n) s.br

/-- The pair store into S-box k (rule R53). -/
def State.storePairS (s : State) (k : Fin 4) (n : Fin 128) : State :=
  (s.writeS k (sPairEven n) s.bl).writeS k (sPairOdd n) s.br

/-- (BL, BR) <- (l, r), both values computed before either write (00_scope.md rule R8). -/
def State.setBlock (s : State) (l r : Word) : State := { s with bl := l, br := r }

/-- Y <- w. -/
def State.setY (s : State) (w : Word) : State := { s with y := w }

/-- P <- PI_P and S <- PI_S, every word (40_control.md rule R101). -/
def State.loadTables (s : State) : State := { s with p := piP, sbox := piS }

/-- P, S, BL, BR and Y <- 0, every word (40_control.md rule R102). -/
def State.clearData (s : State) : State :=
  { s with
    p := Vector.replicate 18 0
    sbox := Vector.replicate 4 (Vector.replicate 256 0)
    bl := 0
    br := 0
    y := 0 }

/-- raise CommandError(code): ERR <- 1 and ECODE <- code, nothing else (60_exceptions.md rule R202). -/
def State.raiseError (s : State) (code : ErrorCode) : State := { s with err := true, ecode := code }

/-- The reset event, the only way back from a CommandError (rule R204; 70_reset_and_hazards.md rule R230): every
element at its reset value. The host's inputs are the host's and stay (DEDUCED, safe: notes/assumptions/3.md). -/
def State.applyReset (s : State) : State := { State.reset with port := s.port }

/-- One command step (30_encoding.md rule R77): no effect at all while ERR = 1 (60_exceptions.md rule R203); else the
CommandError the checks report; else the effect, on the operands the checks resolved. -/
def command {α : Type} (checked : Except ErrorCode α) (effect : α → State → State) (s : State) :
    Host.Outcome State Fault Refusal :=
  if s.err then .next s
  else
    match checked with
    | .error code => .next (s.raiseError code)
    | .ok x => .next (effect x s)

end Sys2Proof.Machine
end

