-- ==== Sys2Proof/Machine/Operands.lean ====
section
/-! DEFINITION. The four index operand forms (43_tables.md; 20_memory.md rules R50, R54): each resolves the raw
fields to the words they name, or reports the code 60_exceptions.md rule R201 gives for them. -/

namespace Sys2Proof.Machine

/-- The form of a command with no index operand: nothing to check. -/
def noIndex : Except ErrorCode Unit := .ok ()

/-- IDX of XORP, WRP and RDP: a word of P, or INDEX_RANGE above 17. -/
def pIndex (i : BitVec 8) : Except ErrorCode (Fin 18) :=
  if h : i.toNat ≤ 17 then .ok ⟨i.toNat, by omega⟩ else .error .indexRange

/-- IDX of STP: a pair of P, or INDEX_RANGE above 16, or else INDEX_ALIGN where it is odd. -/
def pPair (i : BitVec 8) : Except ErrorCode (Fin 9) :=
  if h : i.toNat ≤ 16 then
    if i.toNat % 2 = 1 then .error .indexAlign else .ok ⟨i.toNat / 2, by omega⟩
  else .error .indexRange

/-- (BOX, IDX) of WRS and RDS: every value is legal. -/
def sIndex (k : BitVec 2) (i : BitVec 8) : Except ErrorCode (Fin 4 × Fin 256) :=
  .ok (⟨k.toNat, k.isLt⟩, ⟨i.toNat, i.isLt⟩)

/-- (BOX, IDX) of STS: a pair of S-box BOX, or INDEX_ALIGN where IDX is odd. -/
def sPair (k : BitVec 2) (i : BitVec 8) : Except ErrorCode (Fin 4 × Fin 128) :=
  if i.toNat % 2 = 1 then .error .indexAlign
  else .ok (⟨k.toNat, k.isLt⟩, ⟨i.toNat / 2, by have := i.isLt; omega⟩)

end Sys2Proof.Machine
end

