-- ==== Sys2Proof/Machine/Block.lean ====
section
/-! DEFINITION. The block register commands LDBLK and XBLK (42_block.md). -/

namespace Sys2Proof.Machine

/-- LDBLK (rule R120): BL <- A, BR <- B. -/
def execLdblk (a b : Word) (s : State) : Host.Outcome State Fault Refusal :=
  command noIndex (fun _ s => s.setBlock a b) s

/-- XBLK (rule R121): BL <- BL ^ A, BR <- BR ^ B. -/
def execXblk (a b : Word) (s : State) : Host.Outcome State Fault Refusal :=
  command noIndex (fun _ s => s.setBlock (s.bl ^^^ a) (s.br ^^^ b)) s

end Sys2Proof.Machine
end

