-- ==== Sys2Proof/Machine/Cipher.lean ====
section
/-! DEFINITION. The cipher datapath (41_cipher.md): the round function F, encrypt-one-block, and the commands ENC and
FEVAL that expose them. -/

namespace Sys2Proof.Machine

/-- b0 .. b3 of the byte split of F, b0 the most significant byte (20_memory.md rule R52). -/
def fByte (x : Word) (n : Fin 4) : Fin 256 :=
  ⟨(x.extractLsb' (8 * (3 - n.val)) 8).toNat, (x.extractLsb' (8 * (3 - n.val)) 8).isLt⟩

/-- The round function F (rule R110), both additions modulo 2^32. -/
def roundF (s : State) (x : Word) : Word :=
  ((s.readS 0 (fByte x 0) + s.readS 1 (fByte x 1)) ^^^ s.readS 2 (fByte x 2)) + s.readS 3 (fByte x 3)

/-- One round of encrypt-one-block with its swap (rule R111): `l ^= P[i]`, `r ^= F(l)`, then the halves change places. -/
def feistelRound (s : State) (lr : Word × Word) (i : Fin 16) : Word × Word :=
  let l := lr.1 ^^^ s.readP ⟨i.val, by omega⟩
  (lr.2 ^^^ roundF s l, l)

/-- The 16 rounds, i = 0 .. 15 in increasing order (rule R111). -/
def feistelRounds (s : State) (lr : Word × Word) : Word × Word :=
  (List.finRange 16).foldl (feistelRound s) lr

/-- Encrypt-one-block (rule R111): the rounds, the final swap undone, then `r ^= P[16]` and `l ^= P[17]`. -/
def encryptBlock (s : State) (left right : Word) : Word × Word :=
  let lr := feistelRounds s (left, right)
  (lr.2 ^^^ s.readP 17, lr.1 ^^^ s.readP 16)

/-- ENC (rule R112): (BL, BR) <- Encrypt(BL, BR). -/
def execEnc (s : State) : Host.Outcome State Fault Refusal :=
  command noIndex (fun _ s => let lr := encryptBlock s s.bl s.br; s.setBlock lr.1 lr.2) s

/-- FEVAL (rule R113): Y <- F(A). -/
def execFeval (a : Word) (s : State) : Host.Outcome State Fault Refusal :=
  command noIndex (fun _ s => s.setY (roundF s a)) s

end Sys2Proof.Machine
end

