-- ==== Sys2Proof/Machine/Control.lean ====
section
/-! DEFINITION. The control commands NOP, INIT and WIPE (40_control.md). -/

namespace Sys2Proof.Machine

/-- NOP (rule R100): no operation. -/
def execNop (s : State) : Host.Outcome State Fault Refusal := command noIndex (fun _ s => s) s

/-- INIT (rule R101): load the constant tables into P and S. -/
def execInit (s : State) : Host.Outcome State Fault Refusal := command noIndex (fun _ s => s.loadTables) s

/-- WIPE (rule R102): zero all mutable data state. -/
def execWipe (s : State) : Host.Outcome State Fault Refusal := command noIndex (fun _ s => s.clearData) s

end Sys2Proof.Machine
end

