-- ==== Sys2Proof/Machine/Tables.lean ====
section
/-! DEFINITION. The table access commands XORP, WRP, RDP, WRS, RDS, STP and STS (43_tables.md). -/

namespace Sys2Proof.Machine

/-- XORP (rule R130): P[IDX] <- P[IDX] ^ A. -/
def execXorp (i : BitVec 8) (a : Word) (s : State) : Host.Outcome State Fault Refusal :=
  command (pIndex i) (fun n s => s.writeP n (s.readP n ^^^ a)) s

/-- WRP (rule R131): P[IDX] <- A. -/
def execWrp (i : BitVec 8) (a : Word) (s : State) : Host.Outcome State Fault Refusal :=
  command (pIndex i) (fun n s => s.writeP n a) s

/-- RDP (rule R132): Y <- P[IDX]. -/
def execRdp (i : BitVec 8) (s : State) : Host.Outcome State Fault Refusal :=
  command (pIndex i) (fun n s => s.setY (s.readP n)) s

/-- WRS (rule R133): S[BOX][IDX] <- A. -/
def execWrs (k : BitVec 2) (i : BitVec 8) (a : Word) (s : State) : Host.Outcome State Fault Refusal :=
  command (sIndex k i) (fun kj s => s.writeS kj.1 kj.2 a) s

/-- RDS (rule R134): Y <- S[BOX][IDX]. -/
def execRds (k : BitVec 2) (i : BitVec 8) (s : State) : Host.Outcome State Fault Refusal :=
  command (sIndex k i) (fun kj s => s.setY (s.readS kj.1 kj.2)) s

/-- STP (rule R135): P[IDX] <- BL, P[IDX + 1] <- BR. -/
def execStp (i : BitVec 8) (s : State) : Host.Outcome State Fault Refusal :=
  command (pPair i) (fun n s => s.storePairP n) s

/-- STS (rule R136): S[BOX][IDX] <- BL, S[BOX][IDX + 1] <- BR. -/
def execSts (k : BitVec 2) (i : BitVec 8) (s : State) : Host.Outcome State Fault Refusal :=
  command (sPair k i) (fun kn s => s.storePairS kn.1 kn.2) s

end Sys2Proof.Machine
end

