-- ==== Sys2Proof/Machine/Dispatch.lean ====
section
/-! DEFINITION. The meaning of every command: one arm per row of the opcode map (30_encoding.md rule R73). -/

namespace Sys2Proof.Machine

def exec (i : Instr) (s : State) : Host.Outcome State Fault Refusal :=
  match i with
  | .nop => Sys2Proof.Machine.execNop s
  | .init => Sys2Proof.Machine.execInit s
  | .wipe => Sys2Proof.Machine.execWipe s
  | .ldblk a b => Sys2Proof.Machine.execLdblk a b s
  | .xblk a b => Sys2Proof.Machine.execXblk a b s
  | .enc => Sys2Proof.Machine.execEnc s
  | .feval a => Sys2Proof.Machine.execFeval a s
  | .xorp n a => Sys2Proof.Machine.execXorp n a s
  | .wrp n a => Sys2Proof.Machine.execWrp n a s
  | .stp n => Sys2Proof.Machine.execStp n s
  | .wrs k n a => Sys2Proof.Machine.execWrs k n a s
  | .sts k n => Sys2Proof.Machine.execSts k n s
  | .rdp n => Sys2Proof.Machine.execRdp n s
  | .rds k n => Sys2Proof.Machine.execRds k n s

end Sys2Proof.Machine
end

