-- ==== Sys2Proof/Machine/Transaction.lean ====
section
/-! DEFINITION. Execute(CMD, A, B), the core's answer to one transaction (30_encoding.md rule R77), and to one input of
the host (60_exceptions.md rule R206, 70_reset_and_hazards.md rule R230). -/

namespace Sys2Proof.Machine

/-- Execute(CMD, A, B) (rule R77). A CMD that fails Check raises its CommandError, unless ERR = 1 blocks it; both are
the shared `command`. -/
def execute (t : Transaction) (s : State) : Host.Outcome State Fault Refusal :=
  match decode t with
  | .ok i => exec i s
  | .error code => command (Except.error code : Except ErrorCode Unit) (fun _ s => s) s

/-- What one input of the host does: reset wins over a command presented with it (rule R206); with neither, the core
waits and nothing changes (rule R230: "after reset it waits for the host's first command"; DEDUCED, safe:
notes/assumptions/2.md). -/
def acceptInput (h : HostInput) (s : State) : Host.Outcome State Fault Refusal :=
  if h.reset then .next s.applyReset
  else
    match h.command with
    | none => .next s
    | some t => execute t s

/-- The input of this step and the state without it; none where the host has nothing pending. -/
def takeInput (s : State) : Option (HostInput × State) :=
  match s.port with
  | [] => none
  | h :: rest => some (h, { s with port := rest })

/-- The state in which the host presents transaction `t` next, before whatever else it has pending. -/
def State.present (s : State) (t : Transaction) : State := { s with port := ⟨false, some t⟩ :: s.port }

end Sys2Proof.Machine
end

