-- ==== Sys2Proof/Machine/Step.lean ====
section
/-! DEFINITION. One step of the machine: it takes the host's next input and answers it (70_reset_and_hazards.md rule
R235: accept-and-complete is one step). -/

namespace Sys2Proof.Machine

/-- One step. With no input pending the core waits: the state stays as it is (notes/assumptions/2.md). -/
def step (s : State) : Host.Outcome State Fault Refusal :=
  match takeInput s with
  | none => .next s
  | some (h, s') => acceptInput h s'

/-- The state whose next step runs the transaction with these bits: the host presents it next. BF-CORE fetches no
instructions (20_memory.md rule R62), so the command port is where a command comes from (notes/assumptions/1.md). -/
def State.withFetchWord (s : State) (nbits w : Nat) : State := s.present (transactionOfBits nbits w)

end Sys2Proof.Machine
end

