-- ==== Sys2Proof/Machine/Assembler.lean ====
section
/-! DEFINITION. The assembler of 30_encoding.md rules R78 to R80: the pseudo-instructions CLRBLK and STN, the host
control notation, source lines and listings. DESIGN CHOICE (safe): what rule R78 does not say of a source line is
fixed as notes/assumptions/8.md lists. -/

namespace Sys2Proof.Machine

/-- `CLRBLK` expands to `LDBLK 0, 0` (rule R79). -/
def clrblk : Instr := .ldblk 0 0

/-- `STN n`, the store of the block into pair n of `P || S[0] || S[1] || S[2] || S[3]` (rule R79, 0 <= n <= 520). -/
def stn (n : Nat) : Instr :=
  if n ≤ 8 then .stp (BitVec.ofNat 8 (2 * n))
  else .sts (BitVec.ofNat 2 ((n - 9) / 128)) (BitVec.ofNat 8 (2 * ((n - 9) % 128)))

/-- `repeat N { body }`: N copies of body (rules R12, R80). -/
def repeatCopies {α : Type} (n : Nat) (body : List α) : List α := (List.replicate n body).flatten

/-- `for n in a..b { body }`: body once for each n = a, a+1, ..., b (rules R12, R80). -/
def forRange {α : Type} (a b : Nat) (body : Nat → List α) : List α := (List.range' a (b + 1 - a)).flatMap body

/-- A statement of an assembler source: a command or a pseudo-instruction (rules R78, R79). -/
inductive Stmt where
  | instr (i : Instr)
  | clrblk
  | stn (n : Nat)
  deriving DecidableEq, Repr

/-- The command a statement assembles to; an assembler refuses STN with n > 520 (rule R79). -/
def Stmt.expand : Stmt → Option Instr
  | .instr i => some i
  | .clrblk => some Machine.clrblk
  | .stn n => if n ≤ 520 then some (Machine.stn n) else none

/-- The mnemonic of an opcode (rule R73). -/
def opMnemonic : Op → List Char
  | .nop => ['N', 'O', 'P']
  | .init => ['I', 'N', 'I', 'T']
  | .wipe => ['W', 'I', 'P', 'E']
  | .ldblk => ['L', 'D', 'B', 'L', 'K']
  | .xblk => ['X', 'B', 'L', 'K']
  | .enc => ['E', 'N', 'C']
  | .feval => ['F', 'E', 'V', 'A', 'L']
  | .xorp => ['X', 'O', 'R', 'P']
  | .wrp => ['W', 'R', 'P']
  | .stp => ['S', 'T', 'P']
  | .wrs => ['W', 'R', 'S']
  | .sts => ['S', 'T', 'S']
  | .rdp => ['R', 'D', 'P']
  | .rds => ['R', 'D', 'S']

/-- A number as an operand of `w` bits; none where it does not fit. -/
def operandBits (w n : Nat) : Option (BitVec w) := if n < 2 ^ w then some (BitVec.ofNat w n) else none

/-- The command of an opcode with the operands in the order of rule R78. -/
def opStmt (o : Op) (ops : List Nat) : Option Instr :=
  match o, ops with
  | .nop, [] => some .nop
  | .init, [] => some .init
  | .wipe, [] => some .wipe
  | .enc, [] => some .enc
  | .ldblk, [a, b] => return .ldblk (← operandBits 32 a) (← operandBits 32 b)
  | .xblk, [a, b] => return .xblk (← operandBits 32 a) (← operandBits 32 b)
  | .feval, [a] => return .feval (← operandBits 32 a)
  | .xorp, [i, a] => return .xorp (← operandBits 8 i) (← operandBits 32 a)
  | .wrp, [i, a] => return .wrp (← operandBits 8 i) (← operandBits 32 a)
  | .stp, [i] => return .stp (← operandBits 8 i)
  | .rdp, [i] => return .rdp (← operandBits 8 i)
  | .wrs, [k, i, a] => return .wrs (← operandBits 2 k) (← operandBits 8 i) (← operandBits 32 a)
  | .sts, [k, i] => return .sts (← operandBits 2 k) (← operandBits 8 i)
  | .rds, [k, i] => return .rds (← operandBits 2 k) (← operandBits 8 i)
  | _, _ => none

/-- The statement of a mnemonic and its operands (rules R78, R79). -/
def parseStmt (mnemonic : List Char) (ops : List Nat) : Option Stmt :=
  match Op.all.find? fun o => opMnemonic o == mnemonic with
  | some o => (opStmt o ops).map .instr
  | none =>
    match ops with
    | [] => if mnemonic == ['C', 'L', 'R', 'B', 'L', 'K'] then some .clrblk else none
    | [n] => if mnemonic == ['S', 'T', 'N'] then some (.stn n) else none
    | _ => none

/-- A hexadecimal digit of a listing. -/
def hexDigit (n : BitVec 4) : Char := Char.ofNat (if n.toNat < 10 then n.toNat + 48 else n.toNat + 55)

/-- The value of a digit character: the digit a listing shows as it, or as its capital. -/
def digitValue (c : Char) : Option Nat := (List.range 16).find? fun n => hexDigit (BitVec.ofNat 4 n) == c.toUpper

/-- The number a run of digits of a base stands for, onto `acc`. -/
def parseDigits (base : Nat) : List Char → Nat → Option Nat
  | [], acc => some acc
  | c :: cs, acc =>
    match digitValue c with
    | some d => if d < base then parseDigits base cs (acc * base + d) else none
    | none => none

/-- A number: decimal, or hexadecimal with a `0x` prefix (rule R78). -/
def parseNumber : List Char → Option Nat
  | [] => none
  | ['0', 'x'] => none
  | '0' :: 'x' :: cs => parseDigits 16 cs 0
  | cs => parseDigits 10 cs 0

/-- A blank between the parts of a line. -/
def isBlank (c : Char) : Bool := c == ' ' || c == '\t'

/-- The characters without the blanks before and after. -/
def trimBlanks (cs : List Char) : List Char := ((cs.dropWhile isBlank).reverse.dropWhile isBlank).reverse

/-- The parts between commas (rule R78: "Operands are separated by commas"). -/
def splitCommas : List Char → List (List Char)
  | [] => [[]]
  | c :: cs =>
    if c == ',' then [] :: splitCommas cs
    else
      match splitCommas cs with
      | part :: rest => (c :: part) :: rest
      | [] => [[c]]

/-- The operands of a line, none where one is no number. -/
def parseOperands (cs : List Char) : Option (List Nat) :=
  if cs.isEmpty then some [] else (splitCommas cs).mapM fun part => parseNumber (trimBlanks part)

/-- The statement of a source line `MNEMONIC operands ; comment` (rule R78): `some none` for a line that holds only
blanks and a comment. -/
def parseLine (line : List Char) : Option (Option Stmt) :=
  let body := trimBlanks (line.takeWhile fun c => c != ';')
  if body.isEmpty then some none
  else do
    let ops ← parseOperands (trimBlanks (body.dropWhile fun c => !isBlank c))
    let st ← parseStmt (body.takeWhile fun c => !isBlank c) ops
    return some st

/-- The transactions a source line assembles to: none where the assembler refuses it. -/
def assembleLine (line : List Char) : Option (List Transaction) := do
  match ← parseLine line with
  | none => return []
  | some st => return [encode (← st.expand)]

/-- A program, line by line. -/
def assembleProgram (lines : List (List Char)) : Option (List Transaction) := do
  return (← lines.mapM assembleLine).flatten

/-- A word in eight-digit hexadecimal (rule R78). -/
def hexWord (w : Word) : List Char :=
  [28, 24, 20, 16, 12, 8, 4, 0].map fun lo => hexDigit (w.extractLsb' lo 4)

/-- The listing of a command: `CMD A B` in eight-digit hexadecimal (rule R78). -/
def listing (t : Transaction) : List Char := hexWord t.cmd ++ ' ' :: hexWord t.a ++ ' ' :: hexWord t.b

end Sys2Proof.Machine
end

