-- ==== Sys2Proof/Machine/Bytes.lean ====
section
/-! DEFINITION. Byte and word conversion at the host boundary, big-endian (00_scope.md rule R9, 20_memory.md rule
R51). -/

namespace Sys2Proof.Machine

/-- BE32(b0, b1, b2, b3) (rule R9). -/
def be32 (b0 b1 b2 b3 : Byte) : Word := b0 ++ b1 ++ b2 ++ b3

/-- BYTES_BE(w) (rule R9). -/
def bytesBE (w : Word) : List Byte :=
  [w.extractLsb' 24 8, w.extractLsb' 16 8, w.extractLsb' 8 8, w.extractLsb' 0 8]

/-- BE32S(bytes), the words of a byte sequence whose length is a multiple of 4 (rule R9). -/
def be32s {n : Nat} (bytes : Vector Byte (4 * n)) : Vector Word n :=
  Vector.ofFn fun i => be32 bytes[4 * i.val] bytes[4 * i.val + 1] bytes[4 * i.val + 2] bytes[4 * i.val + 3]

/-- How an 8-byte block enters (BL, BR) (rule R51). -/
def blockOfBytes (b : Vector Byte 8) : Word × Word := (be32 b[0] b[1] b[2] b[3], be32 b[4] b[5] b[6] b[7])

/-- How (BL, BR) leaves as 8 bytes (rule R51). -/
def bytesOfBlock (l r : Word) : List Byte := bytesBE l ++ bytesBE r

end Sys2Proof.Machine
end

