-- ==== Sys2Proof/Machine/HostSequences.lean ====
section
/-! DEFINITION. The host sequences of 45_host_sequences.md: expand_key, the EksBlowfish setup and the bcrypt driver,
as a host that issues commands to the core and reads its outputs between them (70_reset_and_hazards.md rules R235,
R236). The readings of 90_conflicts.md C1 to C5 are the spec's own. -/

namespace Sys2Proof.Machine

/-- Key' = key || 0x00 (rule R152). -/
def keyPrime (key : List Byte) : Vector Byte (key.length + 1) := ⟨(key ++ [0]).toArray, by simp⟩

/-- Byte j of the data, cycled as one byte stream (rule R153). -/
def cyclicByte {n : Nat} (data : Vector Byte (n + 1)) (j : Nat) : Byte :=
  data[j % (n + 1)]'(Nat.mod_lt j (Nat.succ_pos n))

/-- StreamWord(data, j), for data of length at least 1 (rule R153). -/
def streamWord {n : Nat} (data : Vector Byte (n + 1)) (j : Nat) : Word :=
  be32 (cyclicByte data j) (cyclicByte data (j + 1)) (cyclicByte data (j + 2)) (cyclicByte data (j + 3))

/-- KeyMix(data) (rule R154). -/
def keyMix {n : Nat} (data : Vector Byte (n + 1)) : List Instr :=
  forRange 0 17 fun i => [.xorp (BitVec.ofNat 8 i) (streamWord data (4 * i))]

/-- Salt word i of the four-word cycle (rule R155). -/
def saltWord (sw : Vector Word 4) (i : Nat) : Word := sw[i % 4]'(Nat.mod_lt i (by decide))

/-- Refill(SW) (rule R155). Every XBLK is issued, the zero ones too (DESIGN CHOICE, safe: notes/assumptions/11.md). -/
def refill (sw : Vector Word 4) : List Instr :=
  clrblk :: forRange 0 520 fun n => [.xblk (saltWord sw (2 * n)) (saltWord sw (2 * n + 1)), .enc, stn n]

/-- The four words of a salt, BE32S(salt) (rule R155). -/
def saltWords (salt : Vector Byte 16) : Vector Word 4 := be32s (n := 4) salt

/-- The all-zero salt (rule R155). -/
def zeroSalt : Vector Byte 16 := Vector.replicate 16 0

/-- expand_key(salt, data): KeyMix, then Refill (rule R156). -/
def expandKey {n : Nat} (salt : Vector Byte 16) (data : Vector Byte (n + 1)) : List Instr :=
  keyMix data ++ refill (saltWords salt)

/-- EksSetup(cost, salt, Key') (rule R157): INIT, the salted expand_key, then 2^cost times both zero-salt ones, with
no early exit (rule R158). -/
def eksSetup {n : Nat} (cost : Nat) (salt : Vector Byte 16) (key' : Vector Byte (n + 1)) : List Instr :=
  .init :: (expandKey salt key' ++
    repeatCopies (2 ^ cost) (expandKey zeroSalt key' ++ expandKey (n := 15) zeroSalt salt))

/-- The plain Blowfish key setup (rule R163): no NUL byte is appended. -/
def plainSetup {n : Nat} (key : Vector Byte (n + 1)) : List Instr := .init :: expandKey zeroSalt key

/-- A host computation goes on with what the part before it left. -/
def andThen {α β : Type} (o : Host.Outcome α Fault Refusal) (f : α → Host.Outcome β Fault Refusal) :
    Host.Outcome β Fault Refusal :=
  match o with
  | .next x => f x
  | .fault r => .fault r
  | .refused r => .refused r

/-- n times, each time on what the last time left. -/
def iterate {α : Type} (f : α → Host.Outcome α Fault Refusal) : Nat → α → Host.Outcome α Fault Refusal
  | 0, x => .next x
  | n + 1, x => andThen (f x) (iterate f n)

/-- The host issues transactions one after another, each after the one before has completed (rule R235). -/
def issueAll : List Transaction → State → Host.Outcome State Fault Refusal
  | [], s => .next s
  | t :: ts, s =>
    match execute t s with
    | .next s' => issueAll ts s'
    | .fault r => .fault r
    | .refused r => .refused r

/-- The host issues the commands of a sequence. -/
def issue (is : List Instr) (s : State) : Host.Outcome State Fault Refusal := issueAll (is.map encode) s

/-- CT[0..5], the fixed plaintext `OrpheanBeholderScryDoubt` as words (rule R159). -/
def plaintext : Vector Word 6 :=
  #v[0x4F727068, 0x65616E42, 0x65686F6C, 0x64657253, 0x63727944, 0x6F756274]

/-- One encryption of plaintext block b: load, encrypt, read back (rule R159). -/
def encryptText (b : Fin 3) (x : Vector Word 6 × State) : Host.Outcome (Vector Word 6 × State) Fault Refusal :=
  andThen (issue [.ldblk x.1[2 * b.val] x.1[2 * b.val + 1], .enc] x.2) fun s =>
    .next ((x.1.set (2 * b.val) (s.output .bl)).set (2 * b.val + 1) (s.output .br), s)

/-- One pass over the three blocks, each encrypted independently (rule R159). -/
def textPass (x : Vector Word 6 × State) : Host.Outcome (Vector Word 6 × State) Fault Refusal :=
  andThen (encryptText 0 x) fun x => andThen (encryptText 1 x) (encryptText 2)

/-- The output bytes: the first 23 of the 24 ciphertext bytes (rule R159). -/
def outputOf (ct : Vector Word 6) : List Byte := (ct.toList.flatMap bytesBE).take Config.outputBytes

/-- Why bcrypt_hash returns no output: the three input errors of rule R151, and the end check of rule R160. -/
inductive HostError where
  | invalidKeyLength
  | invalidSaltLength
  | invalidCost
  /-- STATUS.ERR = 1 at the end check: the host returns no output (rule R160, 93_implementation_defined.md I11). -/
  | commandFailed
  deriving DecidableEq, Repr

/-- The end check (rule R160): the output only when STATUS.ERR, bit 0 of STATUS, is 0. -/
def endCheck (ct : Vector Word 6) (s : State) : Except HostError (List Byte) :=
  if (s.output .status).getLsbD 0 then .error .commandFailed else .ok (outputOf ct)

/-- What a host call returns: the result, and the core as the call leaves it. -/
abbrev HostCall : Type := Host.Outcome (Except HostError (List Byte) × State) Fault Refusal

/-- The computation after validation (rules R157 to R160). `hostWipes` is the parameter of
93_implementation_defined.md I6: a host that wants erasure issues WIPE after its last read (rule R164). -/
def bcryptCompute (hostWipes : Bool) (key : List Byte) (salt : Vector Byte 16) (cost : Nat) (s : State) : HostCall :=
  andThen (issue (eksSetup cost salt (keyPrime key)) s) fun s =>
    andThen (iterate textPass Config.outputPasses (plaintext, s)) fun x =>
      andThen (issue (if hostWipes then [.wipe] else []) x.2) fun s => .next (endCheck x.1 x.2, s)

/-- bcrypt_hash(key, salt, cost) (rule R151): the three input checks in the order key, salt, cost, before any command;
then the computation. -/
def bcryptHash (hostWipes : Bool) (key salt : List Byte) (cost : Nat) (s : State) : HostCall :=
  if key.length > Config.maxKeyBytes then .next (.error .invalidKeyLength, s)
  else if h : salt.length = 16 then
    if cost < Config.minCost ∨ cost > Config.maxCost then .next (.error .invalidCost, s)
    else bcryptCompute hostWipes key ⟨salt.toArray, h⟩ cost s
  else .next (.error .invalidSaltLength, s)

end Sys2Proof.Machine
end

