-- ==== Sys2Proof/Safety.lean ====
section
/-! DEFINITION. What counts as a good state and a good run of the core, in the terms the statements use. -/

namespace Sys2Proof.Machine

/-- ECODE is 0 exactly while ERR = 0 (10_state.md rule R25; 60_exceptions.md rules R200, R202). -/
abbrev State.statusConsistent (s : State) : Prop := s.err = false ↔ s.ecode = .noError

/-- The host has no reset among its pending inputs. -/
abbrev State.noResetPending (s : State) : Prop := ∀ h ∈ s.port, h.reset = false

/-- The host presents exactly these transactions next, one a step, and then `rest`. -/
abbrev State.presents (s : State) (ts : List Transaction) (rest : List HostInput) : Prop :=
  s.port = ts.map (fun t => ⟨false, some t⟩) ++ rest

/-- The concatenated table `P[0..17] || S[0][0..255] || .. || S[3][0..255]` (30_encoding.md rule R79). -/
def State.tableWords (s : State) : List Word := s.p.toList ++ s.sbox.toList.flatMap Vector.toList

/-- A state a run from reset reaches, whatever the host presents (70_reset_and_hazards.md rule R231: a model starts
every run from the state after reset). -/
def Reachable (s : State) : Prop :=
  ∃ (port : List HostInput) (n : Nat), core.run n { State.reset with port := port } = .next s

end Sys2Proof.Machine
end

