-- ==== Sys2Proof/Certificates/Slice0/Obligations.lean ====
section
/-! DEFINITION. The statements about BF-CORE. Each docstring names the rules of spec/ it formalises. Raw fields of CMD
are read here as numbers (`cmd.toNat / 2 ^ 28` is OP, and so on, by the bit positions of 30_encoding.md rule R71), so
that a statement does not lean on the decoder it speaks of. -/

open Sys2Proof Sys2Proof.Machine

/-! ### Encoding and decoding -/

/-- 30_encoding.md rules R71 to R74, R76: decoding what a legal command encodes to gives it back, whole. -/
def Obligations.DecodeOfEncodeIsSelf : Prop :=
  ∀ i : Instr, i.wellFormed = true → decode (encode i) = .ok i

/-- Rules R71, R73, R74: a decoded command is legal and has one CMD word, the one it was decoded from. -/
def Obligations.DecodedCommandHasOneWord : Prop :=
  ∀ (t : Transaction) (i : Instr), decode t = .ok i → i.wellFormed = true ∧ (encode i).cmd = t.cmd

/-- 60_exceptions.md rule R201: Check, cause by cause, in its order of precedence. -/
def Obligations.CheckFollowsPrecedence : Prop :=
  ∀ cmd : Word,
    let op := cmd.toNat / 2 ^ 28
    let box := cmd.toNat / 2 ^ 8 % 2 ^ 2
    let idx := cmd.toNat % 2 ^ 8
    (codeNumber (check cmd)).toNat =
      if op = 0xE ∨ op = 0xF then 1
      else if cmd.toNat / 2 ^ 10 % 2 ^ 18 ≠ 0 then 2
      else if box ≠ 0 ∧ op ∉ [0xA, 0xB, 0xD] then 2
      else if idx ≠ 0 ∧ op ∉ [0x7, 0x8, 0x9, 0xC, 0xA, 0xB, 0xD] then 2
      else if op ∈ [0x7, 0x8, 0xC] ∧ idx > 17 then 3
      else if op = 0x9 ∧ idx > 16 then 3
      else if op ∈ [0x9, 0xB] ∧ idx % 2 = 1 then 4
      else 0

/-- Rule R75, last sentences: every CMD is either legal, and decodes to a command, or illegal with exactly one code. -/
def Obligations.DecodeAnswersCommandOrOneCode : Prop :=
  ∀ t : Transaction,
    (check t.cmd = .noError ∧ ∃ i, decode t = .ok i) ∨
    (check t.cmd ≠ .noError ∧ ∀ o, decode t = o → o = .error (check t.cmd))

/-- Rules R72, R73 ("reads A", "reads B"): an operand word the command's rule does not read has no effect. -/
def Obligations.UnreadOperandsHaveNoEffect : Prop :=
  ∀ (s : State) (cmd a b a' b' : Word),
    (cmd.toNat / 2 ^ 28 ∈ [0x0, 0x1, 0x2, 0x5, 0x9, 0xB, 0xC, 0xD, 0xE, 0xF] →
      execute ⟨cmd, a, b⟩ s = execute ⟨cmd, a', b'⟩ s) ∧
    (cmd.toNat / 2 ^ 28 ∈ [0x6, 0x7, 0x8, 0xA] → execute ⟨cmd, a, b⟩ s = execute ⟨cmd, a, b'⟩ s)

/-- Listings of 95_test_vectors.md, P1, P2, P4, P5 and section 3.7, one command of each row: the words the spec writes
decode to the commands it names. -/
def Obligations.SpecWordsDecodeToTheirCommands : Prop :=
  decode ⟨0x00000000, 0, 0⟩ = .ok .nop ∧
  decode ⟨0x10000000, 0, 0⟩ = .ok .init ∧
  decode ⟨0x20000000, 0, 0⟩ = .ok .wipe ∧
  decode ⟨0x30000000, 5, 6⟩ = .ok (.ldblk 5 6) ∧
  decode ⟨0x40000000, 0, 0⟩ = .ok (.xblk 0 0) ∧
  decode ⟨0x50000000, 0, 0⟩ = .ok .enc ∧
  decode ⟨0x60000000, 0x01020304, 0⟩ = .ok (.feval 0x01020304) ∧
  decode ⟨0x70000011, 0xFFFFFFFF, 0⟩ = .ok (.xorp 17 0xFFFFFFFF) ∧
  decode ⟨0x80000000, 0x01000000, 0⟩ = .ok (.wrp 0 0x01000000) ∧
  decode ⟨0x90000010, 0, 0⟩ = .ok (.stp 16) ∧
  decode ⟨0xA0000300, 0x10000000, 0⟩ = .ok (.wrs 3 0 0x10000000) ∧
  decode ⟨0xB00001FE, 0, 0⟩ = .ok (.sts 1 254) ∧
  decode ⟨0xC0000011, 0, 0⟩ = .ok (.rdp 17) ∧
  decode ⟨0xD0000280, 0, 0⟩ = .ok (.rds 2 128)

/-- Rules R76, R77: a step on a presented transaction that decodes to a command is that command's meaning, on the
state with the transaction taken off the port. That the port is a list of the state is the model's choice
(notes/assumptions/1.md). -/
def Obligations.StepRunsThePresentedCommand : Prop :=
  (∀ (s : State) (t : Transaction) (rest : List HostInput) (i : Instr),
    s.port = ⟨false, some t⟩ :: rest → decode t = .ok i → step s = exec i { s with port := rest }) ∧
  (∀ (s : State) (nbits w : Nat) (i : Instr),
    decodeTableWord nbits w = some i → step (s.withFetchWord nbits w) = exec i s)

/-- Rules R77, R201: a step on the words of any command, a command with an illegal IDX too, is that command's
meaning; where the IDX is illegal the decoder refuses and both take the same CommandError. That `exec` of a term with an
illegal IDX takes it is the model's reading (notes/assumptions/5.md), and that the words are presented on a port of the
state is the model's choice (notes/assumptions/1.md). -/
def Obligations.StepOnAnyEncodedCommandIsItsMeaning : Prop :=
  ∀ (s : State) (i : Instr), step (s.present (encode i)) = exec i s

/-! ### The command step, errors and reset -/

/-- Rule R77, branch by branch; a command that passes the checks completes and leaves ERR = 0. -/
def Obligations.ExecuteFollowsTheCommandStep : Prop :=
  ∀ (s : State) (t : Transaction),
    (s.err = true → execute t s = .next s) ∧
    (s.err = false → check t.cmd ≠ .noError →
      execute t s = .next { s with err := true, ecode := check t.cmd }) ∧
    (s.err = false → check t.cmd = .noError →
      ∃ i s', decode t = .ok i ∧ execute t s = exec i s ∧ exec i s = .next s' ∧ s'.err = false)

/-- 60_exceptions.md rule R202: a step on a failing command sets ERR, records the code, and changes nothing else
of the core. That the taken input leaves a port of the state is the model's choice (notes/assumptions/1.md). -/
def Obligations.CommandErrorWritesOnlyStatus : Prop :=
  ∀ (s : State) (t : Transaction) (rest : List HostInput),
    s.port = ⟨false, some t⟩ :: rest → s.err = false → check t.cmd ≠ .noError →
    step s = .next { s with err := true, ecode := check t.cmd, port := rest }

/-- Rule R203: while ERR = 1 no command has an effect, an illegal one neither. -/
def Obligations.ErrorBlocksEveryCommand : Prop :=
  ∀ s : State, s.err = true →
    (∀ t : Transaction, execute t s = .next s) ∧ (∀ i : Instr, exec i s = .next s)

/-- Rules R203, R204: after an error any number of steps without a reset leaves every element as the first error left
it, ECODE too: whatever next state they answer. That only the host's inputs are used up is the model's choice of a port
(notes/assumptions/1.md), and that a step with nothing presented leaves the state is its reading
(notes/assumptions/2.md). -/
def Obligations.FirstErrorStandsUntilReset : Prop :=
  ∀ (n : Nat) (s t : State), s.err = true → s.noResetPending → core.run n s = .next t →
    t = { s with port := s.port.drop n }

/-- Rule R204: a step that clears ERR is a reset. The port is the model's choice (notes/assumptions/1.md), and that a
step with nothing presented clears nothing is its reading (notes/assumptions/2.md). -/
def Obligations.OnlyResetClearsTheError : Prop :=
  ∀ s t : State, step s = .next t → s.err = true → t.err = false →
    ∃ c rest, s.port = ⟨true, c⟩ :: rest

/-- 10_state.md rule R25, "0 when ERR = 0", and 60_exceptions.md rule R200: every step, from every state in which ECODE
is 0 exactly while ERR = 0, leaves such a state. -/
def Obligations.StepKeepsStatusConsistent : Prop :=
  ∀ s t : State, s.statusConsistent → step s = .next t → t.statusConsistent

/-- The invariant above holds at reset (rule R30). -/
def Obligations.ResetStatusIsConsistent : Prop := State.reset.statusConsistent

/-- Rule R25: the fields of the STATUS word, its hardwired bits, and the numbers of the codes (rule R200). -/
def Obligations.StatusWordFields : Prop :=
  (∀ s : State,
    s.statusWord.toNat % 2 = (if s.err then 1 else 0) ∧
    s.statusWord.toNat / 2 % 8 = 0 ∧
    s.statusWord.toNat / 2 ^ 4 % 2 ^ 4 = (codeNumber s.ecode).toNat ∧
    s.statusWord.toNat / 2 ^ 8 = 0 ∧
    (codeNumber s.ecode).toNat ≤ 4) ∧
  codeNumber .noError = 0 ∧ codeNumber .illegalOpcode = 1 ∧ codeNumber .reservedField = 2 ∧
  codeNumber .indexRange = 3 ∧ codeNumber .indexAlign = 4

/-- Rule R77: "It always completes". The port is the model's choice (notes/assumptions/1.md), and that
with nothing presented the core waits and stays as it is is the model's reading (notes/assumptions/2.md). -/
def Obligations.EveryStepCompletes : Prop := ∀ s : State, ∃ t, step s = .next t

/-- Rule R30: the value of every state element after reset. -/
def Obligations.ResetValues : Prop :=
  (∀ i : Fin 18, State.reset.readP i = piP[i]) ∧
  (∀ (k : Fin 4) (j : Fin 256), State.reset.readS k j = piS[k][j]) ∧
  State.reset.bl = 0x00000000 ∧ State.reset.br = 0x00000000 ∧ State.reset.y = 0x00000000 ∧
  State.reset.err = false ∧ codeNumber State.reset.ecode = 0 ∧ State.reset.statusWord = 0

/-- 60_exceptions.md rule R206, 70_reset_and_hazards.md rule R230: reset wins over a command presented with it, from
every state. The port is the model's choice (notes/assumptions/1.md), and that the host's later inputs stay on it is
the model's reading (notes/assumptions/3.md). -/
def Obligations.ResetWinsOverThePresentedCommand : Prop :=
  ∀ (s : State) (c : Option Transaction) (rest : List HostInput), s.port = ⟨true, c⟩ :: rest →
    step s = .next { State.reset with port := rest }

/-- 70_reset_and_hazards.md rule R232. -/
def Obligations.InitAfterResetChangesNothing : Prop := exec .init State.reset = .next State.reset

/-- 20_memory.md rule R60, 70_reset_and_hazards.md rule R235 (the port is the model's choice,
notes/assumptions/1.md): stepping through presented transactions is executing
them one after another, each on the state the one before left. -/
def Obligations.PresentedTransactionsRunInOrder : Prop :=
  ∀ (ts : List Transaction) (rest : List HostInput) (s : State), s.presents ts rest →
    core.run ts.length s = issueAll ts { s with port := rest }

/-! ### What each command does -/

/-- 40_control.md rule R100. -/
def Obligations.NopDoesNothing : Prop :=
  (∀ s : State, s.err = false → exec .nop s = .next s) ∧
  (∀ (s : State) (cmd a b : Word), s.err = false → cmd.toNat / 2 ^ 28 = 0x0 →
    execute ⟨cmd, a, b⟩ s =
      .next (if cmd.toNat % 2 ^ 28 = 0 then s else { s with err := true, ecode := .reservedField }))

/-- 40_control.md rule R101, with its corner cases: INIT loads the tables whatever was there, and twice is once. -/
def Obligations.InitLoadsTheConstantTables : Prop :=
  (∀ s : State, s.err = false →
    exec .init s = .next { s with p := piP, sbox := piS } ∧
    exec .init { s with p := piP, sbox := piS } = .next { s with p := piP, sbox := piS }) ∧
  (∀ (s : State) (cmd a b : Word), s.err = false → cmd.toNat / 2 ^ 28 = 0x1 →
    execute ⟨cmd, a, b⟩ s =
      .next (if cmd.toNat % 2 ^ 28 = 0 then { s with p := piP, sbox := piS }
        else { s with err := true, ecode := .reservedField }))

/-- 40_control.md rule R102, with its corner cases: after WIPE, F is 0 everywhere and encryption exchanges the halves. -/
def Obligations.WipeClearsAllData : Prop :=
  (∀ s : State, s.err = false →
    exec .wipe s = .next { s with
      p := Vector.replicate 18 0, sbox := Vector.replicate 4 (Vector.replicate 256 0), bl := 0, br := 0, y := 0 }) ∧
  (∀ (s : State) (cmd a b : Word), s.err = false → cmd.toNat / 2 ^ 28 = 0x2 →
    execute ⟨cmd, a, b⟩ s =
      if cmd.toNat % 2 ^ 28 = 0 then exec .wipe s
      else .next { s with err := true, ecode := .reservedField }) ∧
  (∀ s t : State, s.err = false → exec .wipe s = .next t →
    (∀ x, roundF t x = 0) ∧ ∀ l r, exec .enc { t with bl := l, br := r } = .next { t with bl := r, br := l })

/-- 42_block.md rule R120. -/
def Obligations.LdblkLoadsTheBlock : Prop :=
  (∀ (s : State) (a b : Word), s.err = false → exec (.ldblk a b) s = .next { s with bl := a, br := b }) ∧
  (∀ (s : State) (cmd a b : Word), s.err = false → cmd.toNat / 2 ^ 28 = 0x3 →
    execute ⟨cmd, a, b⟩ s =
      .next (if cmd.toNat % 2 ^ 28 = 0 then { s with bl := a, br := b }
        else { s with err := true, ecode := .reservedField }))

/-- 42_block.md rule R121, with its corner cases. -/
def Obligations.XblkXorsTheBlock : Prop :=
  (∀ (s : State) (a b : Word), s.err = false →
    exec (.xblk a b) s = .next { s with bl := s.bl ^^^ a, br := s.br ^^^ b }) ∧
  (∀ (s : State) (cmd a b : Word), s.err = false → cmd.toNat / 2 ^ 28 = 0x4 →
    execute ⟨cmd, a, b⟩ s =
      .next (if cmd.toNat % 2 ^ 28 = 0 then { s with bl := s.bl ^^^ a, br := s.br ^^^ b }
        else { s with err := true, ecode := .reservedField })) ∧
  (∀ s : State, s.err = false →
    exec (.xblk 0 0) s = .next s ∧ exec (.xblk s.bl s.br) s = .next { s with bl := 0, br := 0 }) ∧
  (∀ (s t : State) (a b : Word), s.err = false → exec (.xblk a b) s = .next t → exec (.xblk a b) t = .next s)

/-- 41_cipher.md rule R112, with the example of its corner cases. -/
def Obligations.EncEncryptsTheBlock : Prop :=
  (∀ s : State, s.err = false →
    exec .enc s = .next { s with
      bl := (encryptBlock s s.bl s.br).1, br := (encryptBlock s s.bl s.br).2 }) ∧
  (∀ (s : State) (cmd a b : Word), s.err = false → cmd.toNat / 2 ^ 28 = 0x5 →
    execute ⟨cmd, a, b⟩ s =
      if cmd.toNat % 2 ^ 28 = 0 then exec .enc s
      else .next { s with err := true, ecode := .reservedField }) ∧
  encryptBlock State.reset 0 0 = (0x706D9FCC, 0x1792D23A) ∧
  encryptBlock State.reset 0x706D9FCC 0x1792D23A = (0xFDD5DA67, 0xB9D5FA30)

/-- 41_cipher.md rule R113, with its examples. -/
def Obligations.FevalEvaluatesTheRoundFunction : Prop :=
  (∀ (s : State) (a : Word), s.err = false → exec (.feval a) s = .next { s with y := roundF s a }) ∧
  (∀ (s : State) (cmd a b : Word), s.err = false → cmd.toNat / 2 ^ 28 = 0x6 →
    execute ⟨cmd, a, b⟩ s =
      .next (if cmd.toNat % 2 ^ 28 = 0 then { s with y := roundF s a }
        else { s with err := true, ecode := .reservedField })) ∧
  roundF State.reset 0x01020304 = 0x3CEDFF8C ∧ roundF (State.reset.writeS 0 0 0) 0 = 0xDC80F8B8

/-- 43_tables.md rule R130, with its corner cases and examples. -/
def Obligations.XorpXorsOneWordOfP : Prop :=
  (∀ (s : State) (n : Fin 18) (a : Word), s.err = false →
    exec (.xorp (BitVec.ofNat 8 n) a) s = .next { s with p := s.p.set n (s.p[n] ^^^ a) }) ∧
  (∀ (s : State) (i : BitVec 8) (a : Word), s.err = false → 17 < i.toNat →
    exec (.xorp i a) s = .next { s with err := true, ecode := .indexRange }) ∧
  (∀ (s : State) (cmd a b : Word), s.err = false → cmd.toNat / 2 ^ 28 = 0x7 →
    (cmd.toNat / 2 ^ 8 % 2 ^ 20 ≠ 0 →
      execute ⟨cmd, a, b⟩ s = .next { s with err := true, ecode := .reservedField }) ∧
    (∀ i : BitVec 8, cmd.toNat % 2 ^ 28 = i.toNat → execute ⟨cmd, a, b⟩ s = exec (.xorp i a) s)) ∧
  (∀ (s : State) (n : Fin 18), s.err = false → exec (.xorp (BitVec.ofNat 8 n) 0) s = .next s) ∧
  (∀ (s t : State) (n : Fin 18) (a : Word), s.err = false → exec (.xorp (BitVec.ofNat 8 n) a) s = .next t →
    exec (.xorp (BitVec.ofNat 8 n) a) t = .next s)

/-- 43_tables.md rule R131. -/
def Obligations.WrpWritesOneWordOfP : Prop :=
  (∀ (s : State) (n : Fin 18) (a : Word), s.err = false →
    exec (.wrp (BitVec.ofNat 8 n) a) s = .next { s with p := s.p.set n a }) ∧
  (∀ (s : State) (i : BitVec 8) (a : Word), s.err = false → 17 < i.toNat →
    exec (.wrp i a) s = .next { s with err := true, ecode := .indexRange }) ∧
  (∀ (s : State) (cmd a b : Word), s.err = false → cmd.toNat / 2 ^ 28 = 0x8 →
    (cmd.toNat / 2 ^ 8 % 2 ^ 20 ≠ 0 →
      execute ⟨cmd, a, b⟩ s = .next { s with err := true, ecode := .reservedField }) ∧
    (∀ i : BitVec 8, cmd.toNat % 2 ^ 28 = i.toNat → execute ⟨cmd, a, b⟩ s = exec (.wrp i a) s))

/-- 43_tables.md rule R132, with its example. -/
def Obligations.RdpReadsOneWordOfP : Prop :=
  (∀ (s : State) (n : Fin 18), s.err = false →
    exec (.rdp (BitVec.ofNat 8 n)) s = .next { s with y := s.p[n] }) ∧
  (∀ (s : State) (i : BitVec 8), s.err = false → 17 < i.toNat →
    exec (.rdp i) s = .next { s with err := true, ecode := .indexRange }) ∧
  (∀ (s : State) (cmd a b : Word), s.err = false → cmd.toNat / 2 ^ 28 = 0xC →
    (cmd.toNat / 2 ^ 8 % 2 ^ 20 ≠ 0 →
      execute ⟨cmd, a, b⟩ s = .next { s with err := true, ecode := .reservedField }) ∧
    (∀ i : BitVec 8, cmd.toNat % 2 ^ 28 = i.toNat → execute ⟨cmd, a, b⟩ s = exec (.rdp i) s)) ∧
  exec (.rdp 1) State.reset = .next { State.reset with y := 0x85A308D3 }

/-- 43_tables.md rule R133. -/
def Obligations.WrsWritesOneWordOfS : Prop :=
  (∀ (s : State) (k : Fin 4) (j : Fin 256) (a : Word), s.err = false →
    exec (.wrs (BitVec.ofNat 2 k) (BitVec.ofNat 8 j) a) s =
      .next { s with sbox := s.sbox.set k (s.sbox[k].set j a) }) ∧
  (∀ (s : State) (cmd a b : Word), s.err = false → cmd.toNat / 2 ^ 28 = 0xA →
    (cmd.toNat / 2 ^ 10 % 2 ^ 18 ≠ 0 →
      execute ⟨cmd, a, b⟩ s = .next { s with err := true, ecode := .reservedField }) ∧
    (∀ (k : BitVec 2) (i : BitVec 8), cmd.toNat % 2 ^ 28 = 256 * k.toNat + i.toNat →
      execute ⟨cmd, a, b⟩ s = exec (.wrs k i a) s))

/-- 43_tables.md rule R134, with its examples. -/
def Obligations.RdsReadsOneWordOfS : Prop :=
  (∀ (s : State) (k : Fin 4) (j : Fin 256), s.err = false →
    exec (.rds (BitVec.ofNat 2 k) (BitVec.ofNat 8 j)) s = .next { s with y := s.sbox[k][j] }) ∧
  (∀ (s : State) (cmd a b : Word), s.err = false → cmd.toNat / 2 ^ 28 = 0xD →
    (cmd.toNat / 2 ^ 10 % 2 ^ 18 ≠ 0 →
      execute ⟨cmd, a, b⟩ s = .next { s with err := true, ecode := .reservedField }) ∧
    (∀ (k : BitVec 2) (i : BitVec 8), cmd.toNat % 2 ^ 28 = 256 * k.toNat + i.toNat →
      execute ⟨cmd, a, b⟩ s = exec (.rds k i) s)) ∧
  exec (.rds 3 255) State.reset = .next { State.reset with y := 0x3AC372E6 } ∧
  exec (.rds 2 128) State.reset = .next { State.reset with y := 0x667B9FFB }

/-- 43_tables.md rule R135: BL to the even index, BR to the next; the range before the alignment. -/
def Obligations.StpStoresTheBlockPairInP : Prop :=
  (∀ (s : State) (n : Fin 9), s.err = false →
    exec (.stp (BitVec.ofNat 8 (2 * n.val))) s =
      .next { s with p := (s.p.set (2 * n.val) s.bl).set (2 * n.val + 1) s.br }) ∧
  (∀ (s : State) (i : BitVec 8), s.err = false → 16 < i.toNat →
    exec (.stp i) s = .next { s with err := true, ecode := .indexRange }) ∧
  (∀ (s : State) (i : BitVec 8), s.err = false → i.toNat ≤ 16 → i.toNat % 2 = 1 →
    exec (.stp i) s = .next { s with err := true, ecode := .indexAlign }) ∧
  (∀ (s : State) (cmd a b : Word), s.err = false → cmd.toNat / 2 ^ 28 = 0x9 →
    (cmd.toNat / 2 ^ 8 % 2 ^ 20 ≠ 0 →
      execute ⟨cmd, a, b⟩ s = .next { s with err := true, ecode := .reservedField }) ∧
    (∀ i : BitVec 8, cmd.toNat % 2 ^ 28 = i.toNat → execute ⟨cmd, a, b⟩ s = exec (.stp i) s))

/-- 43_tables.md rule R136. -/
def Obligations.StsStoresTheBlockPairInS : Prop :=
  (∀ (s : State) (k : Fin 4) (n : Fin 128), s.err = false →
    exec (.sts (BitVec.ofNat 2 k) (BitVec.ofNat 8 (2 * n.val))) s =
      .next { s with
        sbox := s.sbox.set k ((s.sbox[k].set (2 * n.val) s.bl).set (2 * n.val + 1) s.br) }) ∧
  (∀ (s : State) (k : BitVec 2) (i : BitVec 8), s.err = false → i.toNat % 2 = 1 →
    exec (.sts k i) s = .next { s with err := true, ecode := .indexAlign }) ∧
  (∀ (s : State) (cmd a b : Word), s.err = false → cmd.toNat / 2 ^ 28 = 0xB →
    (cmd.toNat / 2 ^ 10 % 2 ^ 18 ≠ 0 →
      execute ⟨cmd, a, b⟩ s = .next { s with err := true, ecode := .reservedField }) ∧
    (∀ (k : BitVec 2) (i : BitVec 8), cmd.toNat % 2 ^ 28 = 256 * k.toNat + i.toNat →
      execute ⟨cmd, a, b⟩ s = exec (.sts k i) s))

/-! ### The cipher datapath -/

/-- 41_cipher.md rule R110, 20_memory.md rule R52: F on a word given by its bytes, b0 the most significant; it reads
S only. -/
def Obligations.RoundFunctionCombinesFourLookups : Prop :=
  (∀ (s : State) (x : Word) (b0 b1 b2 b3 : Fin 256),
    x.toNat = b0.val * 2 ^ 24 + b1.val * 2 ^ 16 + b2.val * 2 ^ 8 + b3.val →
    roundF s x = ((s.sbox[0][b0] + s.sbox[1][b1]) ^^^ s.sbox[2][b2]) + s.sbox[3][b3]) ∧
  (∀ (s : State) (p : Config.PArray) (x : Word), roundF { s with p := p } x = roundF s x) ∧
  roundF State.reset 0 = 0x2FCFF51E

/-- 41_cipher.md rule R111: the trace (l, r) of the 16 rounds, each round's swap included, then the undone swap and the
last two P words: P[17] on the left, P[16] on the right. -/
def Obligations.EncryptFollowsSixteenRounds : Prop :=
  ∀ (s : State) (l r : Nat → Word),
    (∀ i : Fin 16, l (i.val + 1) = r i.val ^^^ roundF s (l i.val ^^^ s.p[i.val]) ∧
      r (i.val + 1) = l i.val ^^^ s.p[i.val]) →
    encryptBlock s (l 0) (r 0) = (r 16 ^^^ s.p[17], l 16 ^^^ s.p[16])

/-- Rule R111, a consequence: for every P and S, encryption maps different blocks to different blocks. -/
def Obligations.EncryptIsInjective : Prop :=
  ∀ (s : State) (l r l' r' : Word), encryptBlock s l r = encryptBlock s l' r' → l = l' ∧ r = r'

/-! ### Frames: what a command leaves as it was, whenever it gives a next state -/

/-- 10_state.md rules R21 to R25, 40_control.md: NOP changes nothing, INIT only P and S, WIPE all data but never
STATUS. -/
def Obligations.ControlCommandsFrame : Prop :=
  (∀ s t : State, exec .nop s = .next t → t = s) ∧
  (∀ s t : State, exec .init s = .next t →
    t.bl = s.bl ∧ t.br = s.br ∧ t.y = s.y ∧ t.err = s.err ∧ t.ecode = s.ecode ∧ t.port = s.port) ∧
  (∀ s t : State, exec .wipe s = .next t → t.err = s.err ∧ t.ecode = s.ecode ∧ t.port = s.port)

/-- 20_memory.md rule R55: LDBLK, XBLK and ENC write BL and BR only, and no word of P or S. -/
def Obligations.BlockCommandsFrame : Prop :=
  ∀ (i : Instr) (s t : State), (i = .enc ∨ ∃ a b, i = .ldblk a b ∨ i = .xblk a b) → exec i s = .next t →
    (∀ n, t.readP n = s.readP n) ∧ (∀ k j, t.readS k j = s.readS k j) ∧
    t.y = s.y ∧ t.err = s.err ∧ t.ecode = s.ecode ∧ t.port = s.port

/-- Rules R55, R57: FEVAL, RDP and RDS write Y only; RDP writes STATUS too where its IDX is illegal. -/
def Obligations.ResultCommandsFrame : Prop :=
  ∀ (i : Instr) (s t : State), ((∃ a, i = .feval a) ∨ (∃ n, i = .rdp n) ∨ ∃ k n, i = .rds k n) →
    exec i s = .next t →
    (∀ n, t.readP n = s.readP n) ∧ (∀ k j, t.readS k j = s.readS k j) ∧
    t.bl = s.bl ∧ t.br = s.br ∧ t.port = s.port ∧
    (i.wellFormed = true → t.err = s.err ∧ t.ecode = s.ecode)

/-- Rule R55: XORP and WRP write the word of P their IDX names, and WRS the word of S its BOX and IDX name; every other
word reads as before. -/
def Obligations.SingleWordWritesFrame : Prop :=
  (∀ (i : Instr) (x : BitVec 8) (a : Word) (s t : State), (i = .xorp x a ∨ i = .wrp x a) → exec i s = .next t →
    (∀ n : Fin 18, n.val ≠ x.toNat → t.readP n = s.readP n) ∧ (∀ k j, t.readS k j = s.readS k j) ∧
    t.bl = s.bl ∧ t.br = s.br ∧ t.y = s.y ∧ t.port = s.port ∧
    (x.toNat ≤ 17 → t.err = s.err ∧ t.ecode = s.ecode)) ∧
  (∀ (b : BitVec 2) (x : BitVec 8) (a : Word) (s t : State), exec (.wrs b x a) s = .next t →
    (∀ n, t.readP n = s.readP n) ∧
    (∀ (k : Fin 4) (j : Fin 256), k.val ≠ b.toNat ∨ j.val ≠ x.toNat → t.readS k j = s.readS k j) ∧
    t.bl = s.bl ∧ t.br = s.br ∧ t.y = s.y ∧ t.err = s.err ∧ t.ecode = s.ecode ∧ t.port = s.port)

/-- Rules R53 to R55: STP and STS write the two words at IDX and IDX + 1, none where they fail, and no other. -/
def Obligations.PairStoresFrame : Prop :=
  (∀ (x : BitVec 8) (s t : State), exec (.stp x) s = .next t →
    (∀ n : Fin 18, n.val ≠ x.toNat ∧ n.val ≠ x.toNat + 1 → t.readP n = s.readP n) ∧
    (x.toNat > 16 ∨ x.toNat % 2 = 1 → t.p = s.p) ∧
    (∀ k j, t.readS k j = s.readS k j) ∧
    t.bl = s.bl ∧ t.br = s.br ∧ t.y = s.y ∧ t.port = s.port ∧
    (x.toNat ≤ 16 → x.toNat % 2 = 0 → t.err = s.err ∧ t.ecode = s.ecode)) ∧
  (∀ (b : BitVec 2) (x : BitVec 8) (s t : State), exec (.sts b x) s = .next t →
    (∀ n, t.readP n = s.readP n) ∧
    (∀ (k : Fin 4) (j : Fin 256), k.val ≠ b.toNat ∨ (j.val ≠ x.toNat ∧ j.val ≠ x.toNat + 1) →
      t.readS k j = s.readS k j) ∧
    (x.toNat % 2 = 1 → t.sbox = s.sbox) ∧
    t.bl = s.bl ∧ t.br = s.br ∧ t.y = s.y ∧ t.port = s.port ∧
    (x.toNat % 2 = 0 → t.err = s.err ∧ t.ecode = s.ecode))

/-- 10_state.md rules R21 to R25: only the commands each rule names write P, S, the block register and Y, and only a
CommandError writes STATUS. -/
def Obligations.OnlyNamedCommandsWriteEachElement : Prop :=
  ∀ (i : Instr) (s t : State), exec i s = .next t →
    (t.p ≠ s.p → i.op ∈ [Op.init, .wipe, .xorp, .wrp, .stp]) ∧
    (t.sbox ≠ s.sbox → i.op ∈ [Op.init, .wipe, .wrs, .sts]) ∧
    (t.bl ≠ s.bl ∨ t.br ≠ s.br → i.op ∈ [Op.ldblk, .xblk, .enc, .wipe]) ∧
    (t.y ≠ s.y → i.op ∈ [Op.feval, .rdp, .rds, .wipe]) ∧
    (t.err ≠ s.err ∨ t.ecode ≠ s.ecode →
      check (encode i).cmd ≠ .noError ∧ t = { s with err := true, ecode := check (encode i).cmd })

/-- 20_memory.md rule R57: a command other than ENC, FEVAL, XBLK and XORP, given twice, leaves what once leaves. -/
def Obligations.RepeatedCommandLeavesTheSameState : Prop :=
  ∀ (i : Instr) (s t : State), i.op ∉ [Op.enc, .feval, .xblk, .xorp] → exec i s = .next t → exec i t = .next t

/-! ### Bytes, pseudo-instructions and host sequences -/

/-- 00_scope.md rule R9, 20_memory.md rule R51: BE32 is big-endian, BYTES_BE is its inverse both
ways, and BE32S is BE32 of bytes 4i .. 4i+3. -/
def Obligations.ByteConversionIsBigEndian : Prop :=
  (∀ b0 b1 b2 b3 : Byte,
    (be32 b0 b1 b2 b3).toNat = b0.toNat * 2 ^ 24 + b1.toNat * 2 ^ 16 + b2.toNat * 2 ^ 8 + b3.toNat ∧
    bytesBE (be32 b0 b1 b2 b3) = [b0, b1, b2, b3]) ∧
  (∀ w : Word, ∃ b0 b1 b2 b3, bytesBE w = [b0, b1, b2, b3] ∧ be32 b0 b1 b2 b3 = w) ∧
  (∀ (n : Nat) (bytes : Vector Byte (4 * n)) (i : Fin n), (be32s bytes)[i] =
    be32 bytes[4 * i.val] bytes[4 * i.val + 1] bytes[4 * i.val + 2] bytes[4 * i.val + 3])

/-- 30_encoding.md rule R79: CLRBLK clears the block; STN n stores it into the n-th pair of the concatenated table, for
every n up to 520, and an assembler refuses any n above. -/
def Obligations.StnStoresTheNthPair : Prop :=
  (∀ s : State, s.err = false → exec clrblk s = .next { s with bl := 0, br := 0 }) ∧
  (∀ (n : Nat) (s : State), n ≤ 520 → s.err = false → ∃ t,
    exec (stn n) s = .next t ∧
    t.tableWords = ((s.tableWords.set (2 * n) s.bl).set (2 * n + 1) s.br) ∧
    t.bl = s.bl ∧ t.br = s.br ∧ t.y = s.y ∧ t.err = s.err ∧ t.ecode = s.ecode ∧ t.port = s.port) ∧
  (∀ n : Nat, (Stmt.stn n).expand = if n ≤ 520 then some (stn n) else none)

/-- 30_encoding.md rule R78, 95_test_vectors.md P1, P4, P5: source lines of the spec assemble to their listings, and a
line with an operand too many or too large is refused (these two refusals are the model's choice,
notes/assumptions/8.md; that of STN 521 is rule R79's). -/
def Obligations.SourceLinesAssembleToTheirListings : Prop :=
  assembleLine "LDBLK 5, 6       ; comment".toList = some [⟨0x30000000, 5, 6⟩] ∧
  assembleLine "STP 3".toList = some [⟨0x90000003, 0, 0⟩] ∧
  assembleLine "WRS 3, 0, 0x10000000".toList = some [⟨0xA0000300, 0x10000000, 0⟩] ∧
  assembleLine "CLRBLK".toList = some [⟨0x30000000, 0, 0⟩] ∧
  assembleLine "STN 520".toList = some [⟨0xB00003FE, 0, 0⟩] ∧
  assembleLine "STN 521".toList = none ∧
  assembleLine "RDS 4, 0".toList = none ∧
  assembleLine "ENC 1".toList = none ∧
  listing ⟨0xB00001FE, 0, 0x12ABCDEF⟩ = "B00001FE 00000000 12ABCDEF".toList

/-- 45_host_sequences.md rule R153, its 72-byte example: the appended NUL byte of a 72-byte key reaches no word, so
KeyMix of Key' is KeyMix of the key itself. -/
def Obligations.LongestKeyNeverReachesItsNul : Prop :=
  ∀ (key : List Byte) (h : key.length = 72),
    keyMix (keyPrime key) = keyMix (n := 71) ⟨key.toArray, h⟩

/-- 45_host_sequences.md rule R154: KeyMix xors word i of the key stream into P[i], for all 18 words, and changes
nothing else. -/
def Obligations.KeyMixXorsTheKeyStreamIntoP : Prop :=
  ∀ (n : Nat) (data : Vector Byte (n + 1)) (s : State), s.err = false →
    issue (keyMix data) s =
      .next { s with p := Vector.ofFn fun i : Fin 18 => s.p[i] ^^^ streamWord data (4 * i.val) }

/-- 45_host_sequences.md rule R162: the command and ENC counts of the sequences. That Refill issues the XBLKs of a zero
salt too, and so has 1564 commands and expand_key 1582 for every salt, is the model's choice
(notes/assumptions/11.md). -/
def Obligations.HostSequenceWorkCounts : Prop :=
  ∀ (n cost : Nat) (sw : Vector Word 4) (salt : Vector Byte 16) (data : Vector Byte (n + 1)),
    (keyMix data).length = 18 ∧ (keyMix data).count .enc = 0 ∧
    (refill sw).length = 1564 ∧ (refill sw).count .enc = 521 ∧
    (expandKey salt data).length = 1582 ∧ (expandKey salt data).count .enc = 521 ∧
    (eksSetup cost salt data).length = 1 + 1582 * (1 + 2 ^ (cost + 1)) ∧
    (eksSetup cost salt data).count .enc = 521 * (1 + 2 ^ (cost + 1))

/-- 45_host_sequences.md rule R160: the setup issues legal commands only, so ERR stays 0 through all of it. -/
def Obligations.SetupKeepsErrClear : Prop :=
  ∀ (n cost : Nat) (salt : Vector Byte 16) (key' : Vector Byte (n + 1)) (s : State), s.err = false →
    (∀ i ∈ eksSetup cost salt key', i.wellFormed = true) ∧
    ∃ t, issue (eksSetup cost salt key') s = .next t ∧ t.err = false ∧ t.y = s.y ∧ t.port = s.port

/-- 45_host_sequences.md rules R157, R161: the state the setup leaves in P, S and the block does not depend on the P, S
and block it started from. -/
def Obligations.SetupForgetsTheOldState : Prop :=
  ∀ (n cost : Nat) (salt : Vector Byte 16) (key' : Vector Byte (n + 1)) (s s' : State),
    s.err = false → s'.err = false → ∃ t t',
      issue (eksSetup cost salt key') s = .next t ∧ issue (eksSetup cost salt key') s' = .next t' ∧
      t.p = t'.p ∧ t.sbox = t'.sbox ∧ t.bl = t'.bl ∧ t.br = t'.br

/-- 45_host_sequences.md rule R159: one pass over block b replaces its two words by their encryption and no other word,
and leaves P, S, Y and STATUS as they are. -/
def Obligations.PlaintextBlocksAreIndependent : Prop :=
  ∀ (b : Fin 3) (ct : Vector Word 6) (s : State), s.err = false →
    let e := encryptBlock s ct[2 * b.val] ct[2 * b.val + 1]
    encryptText b (ct, s) =
      .next ((ct.set (2 * b.val) e.1).set (2 * b.val + 1) e.2, { s with bl := e.1, br := e.2 })

/-- 45_host_sequences.md rule R151: the three input checks in their order, each before any command: the core is left
as it was. Valid inputs go on to the computation. -/
def Obligations.InputChecksComeFirstInOrder : Prop :=
  ∀ (w : Bool) (key salt : List Byte) (cost : Nat) (s : State),
    (key.length > 72 → bcryptHash w key salt cost s = .next (.error .invalidKeyLength, s)) ∧
    (key.length ≤ 72 → salt.length ≠ 16 → bcryptHash w key salt cost s = .next (.error .invalidSaltLength, s)) ∧
    (key.length ≤ 72 → salt.length = 16 → cost < 4 ∨ cost > 31 →
      bcryptHash w key salt cost s = .next (.error .invalidCost, s)) ∧
    (key.length ≤ 72 → ∀ h : salt.length = 16, 4 ≤ cost → cost ≤ 31 →
      bcryptHash w key salt cost s = bcryptCompute w key ⟨salt.toArray, h⟩ cost s)

/-- 45_host_sequences.md rules R158 to R160, 00_scope.md rule R6: on valid inputs, from any core without a pending
error, the host's computation ends with an output of exactly 23 bytes, and ERR is still 0. -/
def Obligations.BcryptReturnsTwentyThreeBytes : Prop :=
  ∀ (w : Bool) (key salt : List Byte) (cost : Nat) (s : State),
    key.length ≤ 72 → salt.length = 16 → 4 ≤ cost → cost ≤ 31 → s.err = false →
    ∃ out t, bcryptHash w key salt cost s = .next (.ok out, t) ∧ out.length = 23 ∧ t.err = false

/-- 45_host_sequences.md rule R161: the result is a function of (key, salt, cost) alone, whatever state the core held
before (with no error pending). -/
def Obligations.BcryptOutputDependsOnInputsAlone : Prop :=
  ∀ (w : Bool) (key salt : List Byte) (cost : Nat) (s s' : State), s.err = false → s'.err = false →
    ∃ r t t', bcryptHash w key salt cost s = .next (r, t) ∧ bcryptHash w key salt cost s' = .next (r, t')

/-- 93_implementation_defined.md I6, 45_host_sequences.md rule R164: wiping at the end changes only the state left,
never the output; without it P and S are as the key setup left them. -/
def Obligations.WipingChangesOnlyTheStateLeft : Prop :=
  ∀ (key : List Byte) (salt : Vector Byte 16) (cost : Nat) (s : State), s.err = false →
    ∃ r t u, bcryptCompute false key salt cost s = .next (r, t) ∧
      bcryptCompute true key salt cost s = .next (r, t.clearData) ∧
      issue (eksSetup cost salt (keyPrime key)) s = .next u ∧ t.p = u.p ∧ t.sbox = u.sbox
end

