-- ==== Sys2Proof/Laws/Cipher.lean ====
section
/-! SUPPORT. What the cipher datapath reads: F reads S only, and encrypt-one-block reads P and S only (41_cipher.md
rules R110, R111). -/

namespace Sys2Proof.Machine

theorem roundF_congr {s t : State} (h : s.sbox = t.sbox) (x : Word) : roundF s x = roundF t x := by
  simp [roundF, State.readS, h]

theorem feistelRound_congr {s t : State} (hp : s.p = t.p) (hs : s.sbox = t.sbox) :
    feistelRound s = feistelRound t := by
  funext lr i
  simp [feistelRound, State.readP, hp, roundF_congr hs]

theorem encryptBlock_congr {s t : State} (hp : s.p = t.p) (hs : s.sbox = t.sbox) (l r : Word) :
    encryptBlock s l r = encryptBlock t l r := by
  simp [encryptBlock, feistelRounds, State.readP, hp, feistelRound_congr hp hs]

end Sys2Proof.Machine
end

