-- ==== Sys2Proof/Laws/Decode.lean ====
section
/-! SUPPORT. The fields of a CMD word as numbers, what an encoded word is as a number, and the check in those terms. -/

namespace Sys2Proof

theorem opField_toNat (cmd : Word) : (opField cmd).toNat = cmd.toNat / 2 ^ 28 := by
  have := cmd.isLt
  simp only [opField, BitVec.extractLsb'_toNat, Nat.shiftRight_eq_div_pow]
  omega

theorem rsvField_toNat (cmd : Word) : (rsvField cmd).toNat = cmd.toNat / 2 ^ 10 % 2 ^ 18 := by
  simp only [rsvField, BitVec.extractLsb'_toNat, Nat.shiftRight_eq_div_pow]

theorem boxField_toNat (cmd : Word) : (boxField cmd).toNat = cmd.toNat / 2 ^ 8 % 2 ^ 2 := by
  simp only [boxField, BitVec.extractLsb'_toNat, Nat.shiftRight_eq_div_pow]

theorem idxField_toNat (cmd : Word) : (idxField cmd).toNat = cmd.toNat % 2 ^ 8 := by
  simp only [idxField, BitVec.extractLsb'_toNat, Nat.shiftRight_zero]

theorem append_toNat_eq {m n : Nat} (x : BitVec m) (y : BitVec n) : (x ++ y).toNat = x.toNat * 2 ^ n + y.toNat := by
  rw [BitVec.toNat_append, ← Nat.shiftLeft_add_eq_or_of_lt y.isLt, Nat.shiftLeft_eq]

theorem cmdWord_toNat (o : Op) (box : BitVec 2) (idx : BitVec 8) :
    (cmdWord o box idx).toNat = o.row.code.toNat * 2 ^ 28 + box.toNat * 2 ^ 8 + idx.toNat := by
  simp only [cmdWord, append_toNat_eq, BitVec.toNat_ofNat]
  omega

theorem opField_cmdWord (o : Op) (box : BitVec 2) (idx : BitVec 8) : opField (cmdWord o box idx) = o.row.code := by
  have := box.isLt
  have := idx.isLt
  apply BitVec.eq_of_toNat_eq
  rw [opField_toNat, cmdWord_toNat]
  omega

theorem rsvField_cmdWord (o : Op) (box : BitVec 2) (idx : BitVec 8) : rsvField (cmdWord o box idx) = 0 := by
  have := box.isLt
  have := idx.isLt
  apply BitVec.eq_of_toNat_eq
  rw [rsvField_toNat, cmdWord_toNat]
  show _ = 0
  omega

theorem boxField_cmdWord (o : Op) (box : BitVec 2) (idx : BitVec 8) : boxField (cmdWord o box idx) = box := by
  have := box.isLt
  have := idx.isLt
  apply BitVec.eq_of_toNat_eq
  rw [boxField_toNat, cmdWord_toNat]
  omega

theorem idxField_cmdWord (o : Op) (box : BitVec 2) (idx : BitVec 8) : idxField (cmdWord o box idx) = idx := by
  have := idx.isLt
  apply BitVec.eq_of_toNat_eq
  rw [idxField_toNat, cmdWord_toNat]
  omega

/-- A CMD word with RSV = 0 is made of its other fields. -/
theorem cmdWord_of_fields {cmd : Word} {o : Op} (ho : opField cmd = o.row.code) (hr : rsvField cmd = 0) :
    cmdWord o (boxField cmd) (idxField cmd) = cmd := by
  have h1 := congrArg BitVec.toNat ho
  have h2 := congrArg BitVec.toNat hr
  rw [opField_toNat] at h1
  rw [rsvField_toNat] at h2
  change _ = 0 at h2
  apply BitVec.eq_of_toNat_eq
  rw [cmdWord_toNat, boxField_toNat, idxField_toNat, ← h1]
  omega

theorem ofCode_code (o : Op) : Op.ofCode o.row.code = some o := by
  cases o <;> rfl

/-- An opcode name answers for one OP value only. -/
theorem ofCode_eq_some {c : BitVec 4} {o : Op} (h : Op.ofCode c = some o) : c = o.row.code := by
  have := List.find?_some h
  exact (beq_iff_eq.mp this).symm

/-- Check of an encoded CMD word looks at its operands only. -/
theorem check_cmdWord (o : Op) (box : BitVec 2) (idx : BitVec 8) :
    check (cmdWord o box idx) =
      if box ≠ 0 ∧ o.row.usesBox = false then .reservedField else o.checkIdx idx := by
  simp only [check, opField_cmdWord, ofCode_code, rsvField_cmdWord, boxField_cmdWord, idxField_cmdWord]
  simp

/-- The decoder answers the code Check reports, where it reports one. -/
theorem decode_of_check_ne {t : Transaction} (h : check t.cmd ≠ .noError) : decode t = .error (check t.cmd) := by
  unfold decode
  split
  · exact absurd ‹_› h
  · exact absurd ‹_› h
  · rfl

/-- The decoder answers the row's command, where Check passes. -/
theorem decode_of_check {t : Transaction} {o : Op} (h : check t.cmd = .noError)
    (ho : Op.ofCode (opField t.cmd) = some o) :
    decode t = .ok (o.instr (boxField t.cmd) (idxField t.cmd) t.a t.b) := by
  simp [decode, h, ho]

/-- A CMD that passes Check has an opcode of the map and RSV = 0. -/
theorem check_noError {cmd : Word} (h : check cmd = .noError) :
    ∃ o, Op.ofCode (opField cmd) = some o ∧ rsvField cmd = 0 ∧
      (boxField cmd = 0 ∨ o.row.usesBox = true) ∧ o.checkIdx (idxField cmd) = .noError := by
  unfold check at h
  cases ho : Op.ofCode (opField cmd) with
  | none => simp [ho] at h
  | some o =>
    simp only [ho] at h
    split at h
    · cases h
    · split at h
      · cases h
      · rename_i hr hb
        refine ⟨o, rfl, not_not.mp hr, ?_, h⟩
        by_cases hz : boxField cmd = 0
        · exact .inl hz
        · exact .inr (Bool.not_eq_false _ ▸ fun hu => hb ⟨hz, hu⟩)

end Sys2Proof
end

