-- ==== Sys2Proof/Laws/State.lean ====
section
/-! SUPPORT. One lemma per field per update of the state, each true by rfl, and the read-after-write laws of the two
word spaces. -/

namespace Sys2Proof.Machine

variable (s : State)

@[simp] theorem writeP_p (i : Fin 18) (w : Word) : (s.writeP i w).p = s.p.set i w := rfl
@[simp] theorem writeP_sbox (i : Fin 18) (w : Word) : (s.writeP i w).sbox = s.sbox := rfl
@[simp] theorem writeP_bl (i : Fin 18) (w : Word) : (s.writeP i w).bl = s.bl := rfl
@[simp] theorem writeP_br (i : Fin 18) (w : Word) : (s.writeP i w).br = s.br := rfl
@[simp] theorem writeP_y (i : Fin 18) (w : Word) : (s.writeP i w).y = s.y := rfl
@[simp] theorem writeP_err (i : Fin 18) (w : Word) : (s.writeP i w).err = s.err := rfl
@[simp] theorem writeP_ecode (i : Fin 18) (w : Word) : (s.writeP i w).ecode = s.ecode := rfl
@[simp] theorem writeP_port (i : Fin 18) (w : Word) : (s.writeP i w).port = s.port := rfl

@[simp] theorem writeS_p (k : Fin 4) (j : Fin 256) (w : Word) : (s.writeS k j w).p = s.p := rfl
@[simp] theorem writeS_sbox (k : Fin 4) (j : Fin 256) (w : Word) : (s.writeS k j w).sbox = s.sbox.set k (s.sbox[k].set j w) := rfl
@[simp] theorem writeS_bl (k : Fin 4) (j : Fin 256) (w : Word) : (s.writeS k j w).bl = s.bl := rfl
@[simp] theorem writeS_br (k : Fin 4) (j : Fin 256) (w : Word) : (s.writeS k j w).br = s.br := rfl
@[simp] theorem writeS_y (k : Fin 4) (j : Fin 256) (w : Word) : (s.writeS k j w).y = s.y := rfl
@[simp] theorem writeS_err (k : Fin 4) (j : Fin 256) (w : Word) : (s.writeS k j w).err = s.err := rfl
@[simp] theorem writeS_ecode (k : Fin 4) (j : Fin 256) (w : Word) : (s.writeS k j w).ecode = s.ecode := rfl
@[simp] theorem writeS_port (k : Fin 4) (j : Fin 256) (w : Word) : (s.writeS k j w).port = s.port := rfl

@[simp] theorem storePairP_p (n : Fin 9) : (s.storePairP n).p = (s.p.set (pPairEven n) s.bl).set (pPairOdd n) s.br := rfl
@[simp] theorem storePairP_sbox (n : Fin 9) : (s.storePairP n).sbox = s.sbox := rfl
@[simp] theorem storePairP_bl (n : Fin 9) : (s.storePairP n).bl = s.bl := rfl
@[simp] theorem storePairP_br (n : Fin 9) : (s.storePairP n).br = s.br := rfl
@[simp] theorem storePairP_y (n : Fin 9) : (s.storePairP n).y = s.y := rfl
@[simp] theorem storePairP_err (n : Fin 9) : (s.storePairP n).err = s.err := rfl
@[simp] theorem storePairP_ecode (n : Fin 9) : (s.storePairP n).ecode = s.ecode := rfl
@[simp] theorem storePairP_port (n : Fin 9) : (s.storePairP n).port = s.port := rfl

@[simp] theorem storePairS_p (k : Fin 4) (n : Fin 128) : (s.storePairS k n).p = s.p := rfl
@[simp] theorem storePairS_bl (k : Fin 4) (n : Fin 128) : (s.storePairS k n).bl = s.bl := rfl
@[simp] theorem storePairS_br (k : Fin 4) (n : Fin 128) : (s.storePairS k n).br = s.br := rfl
@[simp] theorem storePairS_y (k : Fin 4) (n : Fin 128) : (s.storePairS k n).y = s.y := rfl
@[simp] theorem storePairS_err (k : Fin 4) (n : Fin 128) : (s.storePairS k n).err = s.err := rfl
@[simp] theorem storePairS_ecode (k : Fin 4) (n : Fin 128) : (s.storePairS k n).ecode = s.ecode := rfl
@[simp] theorem storePairS_port (k : Fin 4) (n : Fin 128) : (s.storePairS k n).port = s.port := rfl

@[simp] theorem setBlock_p (l r : Word) : (s.setBlock l r).p = s.p := rfl
@[simp] theorem setBlock_sbox (l r : Word) : (s.setBlock l r).sbox = s.sbox := rfl
@[simp] theorem setBlock_bl (l r : Word) : (s.setBlock l r).bl = l := rfl
@[simp] theorem setBlock_br (l r : Word) : (s.setBlock l r).br = r := rfl
@[simp] theorem setBlock_y (l r : Word) : (s.setBlock l r).y = s.y := rfl
@[simp] theorem setBlock_err (l r : Word) : (s.setBlock l r).err = s.err := rfl
@[simp] theorem setBlock_ecode (l r : Word) : (s.setBlock l r).ecode = s.ecode := rfl
@[simp] theorem setBlock_port (l r : Word) : (s.setBlock l r).port = s.port := rfl

@[simp] theorem setY_p (w : Word) : (s.setY w).p = s.p := rfl
@[simp] theorem setY_sbox (w : Word) : (s.setY w).sbox = s.sbox := rfl
@[simp] theorem setY_bl (w : Word) : (s.setY w).bl = s.bl := rfl
@[simp] theorem setY_br (w : Word) : (s.setY w).br = s.br := rfl
@[simp] theorem setY_y (w : Word) : (s.setY w).y = w := rfl
@[simp] theorem setY_err (w : Word) : (s.setY w).err = s.err := rfl
@[simp] theorem setY_ecode (w : Word) : (s.setY w).ecode = s.ecode := rfl
@[simp] theorem setY_port (w : Word) : (s.setY w).port = s.port := rfl

@[simp] theorem loadTables_p : s.loadTables.p = piP := rfl
@[simp] theorem loadTables_sbox : s.loadTables.sbox = piS := rfl
@[simp] theorem loadTables_bl : s.loadTables.bl = s.bl := rfl
@[simp] theorem loadTables_br : s.loadTables.br = s.br := rfl
@[simp] theorem loadTables_y : s.loadTables.y = s.y := rfl
@[simp] theorem loadTables_err : s.loadTables.err = s.err := rfl
@[simp] theorem loadTables_ecode : s.loadTables.ecode = s.ecode := rfl
@[simp] theorem loadTables_port : s.loadTables.port = s.port := rfl

@[simp] theorem clearData_p : s.clearData.p = Vector.replicate 18 0 := rfl
@[simp] theorem clearData_sbox : s.clearData.sbox = Vector.replicate 4 (Vector.replicate 256 0) := rfl
@[simp] theorem clearData_bl : s.clearData.bl = 0 := rfl
@[simp] theorem clearData_br : s.clearData.br = 0 := rfl
@[simp] theorem clearData_y : s.clearData.y = 0 := rfl
@[simp] theorem clearData_err : s.clearData.err = s.err := rfl
@[simp] theorem clearData_ecode : s.clearData.ecode = s.ecode := rfl
@[simp] theorem clearData_port : s.clearData.port = s.port := rfl

@[simp] theorem raiseError_p (code : ErrorCode) : (s.raiseError code).p = s.p := rfl
@[simp] theorem raiseError_sbox (code : ErrorCode) : (s.raiseError code).sbox = s.sbox := rfl
@[simp] theorem raiseError_bl (code : ErrorCode) : (s.raiseError code).bl = s.bl := rfl
@[simp] theorem raiseError_br (code : ErrorCode) : (s.raiseError code).br = s.br := rfl
@[simp] theorem raiseError_y (code : ErrorCode) : (s.raiseError code).y = s.y := rfl
@[simp] theorem raiseError_err (code : ErrorCode) : (s.raiseError code).err = true := rfl
@[simp] theorem raiseError_ecode (code : ErrorCode) : (s.raiseError code).ecode = code := rfl
@[simp] theorem raiseError_port (code : ErrorCode) : (s.raiseError code).port = s.port := rfl

@[simp] theorem applyReset_p : s.applyReset.p = piP := rfl
@[simp] theorem applyReset_sbox : s.applyReset.sbox = piS := rfl
@[simp] theorem applyReset_bl : s.applyReset.bl = 0 := rfl
@[simp] theorem applyReset_br : s.applyReset.br = 0 := rfl
@[simp] theorem applyReset_y : s.applyReset.y = 0 := rfl
@[simp] theorem applyReset_err : s.applyReset.err = false := rfl
@[simp] theorem applyReset_ecode : s.applyReset.ecode = .noError := rfl
@[simp] theorem applyReset_port : s.applyReset.port = s.port := rfl

@[simp] theorem present_p (t : Transaction) : (s.present t).p = s.p := rfl
@[simp] theorem present_sbox (t : Transaction) : (s.present t).sbox = s.sbox := rfl
@[simp] theorem present_bl (t : Transaction) : (s.present t).bl = s.bl := rfl
@[simp] theorem present_br (t : Transaction) : (s.present t).br = s.br := rfl
@[simp] theorem present_y (t : Transaction) : (s.present t).y = s.y := rfl
@[simp] theorem present_err (t : Transaction) : (s.present t).err = s.err := rfl
@[simp] theorem present_ecode (t : Transaction) : (s.present t).ecode = s.ecode := rfl
@[simp] theorem present_port (t : Transaction) : (s.present t).port = ⟨false, some t⟩ :: s.port := rfl

theorem readP_writeP_same (i : Fin 18) (w : Word) : (s.writeP i w).readP i = w := by
  simp [State.readP]

theorem readP_writeP_other {i j : Fin 18} (w : Word) (h : j ≠ i) : (s.writeP i w).readP j = s.readP j := by
  have h' : i.val ≠ j.val := fun e => h (Fin.ext e.symm)
  simp [State.readP, Vector.getElem_set_ne _ _ h']

theorem readS_writeS_same (k : Fin 4) (j : Fin 256) (w : Word) : (s.writeS k j w).readS k j = w := by
  simp [State.readS]

theorem readS_writeS_other_word {k : Fin 4} {j j' : Fin 256} (w : Word) (h : j' ≠ j) :
    (s.writeS k j w).readS k j' = s.readS k j' := by
  have h' : j.val ≠ j'.val := fun e => h (Fin.ext e.symm)
  simp [State.readS, Vector.getElem_set_ne _ _ h']

theorem readS_writeS_other_box {k k' : Fin 4} (j j' : Fin 256) (w : Word) (h : k' ≠ k) :
    (s.writeS k j w).readS k' j' = s.readS k' j' := by
  have h' : k.val ≠ k'.val := fun e => h (Fin.ext e.symm)
  simp [State.readS, Vector.getElem_set_ne _ _ h']

/-- A write to S leaves every other word of S alone. -/
theorem readS_writeS_other {k k' : Fin 4} {j j' : Fin 256} (w : Word) (h : k' ≠ k ∨ j' ≠ j) :
    (s.writeS k j w).readS k' j' = s.readS k' j' := by
  by_cases hk : k' = k
  · subst hk
    exact readS_writeS_other_word s w (h.resolve_left fun hn => hn rfl)
  · exact readS_writeS_other_box s j j' w hk

theorem readP_storePairP_even (n : Fin 9) : (s.storePairP n).readP (pPairEven n) = s.bl := by
  have h : pPairEven n ≠ pPairOdd n := by simp [pPairEven, pPairOdd]
  rw [State.storePairP, readP_writeP_other _ _ h, readP_writeP_same]

theorem readP_storePairP_odd (n : Fin 9) : (s.storePairP n).readP (pPairOdd n) = s.br := by
  rw [State.storePairP, readP_writeP_same]

theorem readP_storePairP_other {n : Fin 9} {j : Fin 18} (he : j ≠ pPairEven n) (ho : j ≠ pPairOdd n) :
    (s.storePairP n).readP j = s.readP j := by
  rw [State.storePairP, readP_writeP_other _ _ ho, readP_writeP_other _ _ he]

theorem readS_storePairS_even (k : Fin 4) (n : Fin 128) : (s.storePairS k n).readS k (sPairEven n) = s.bl := by
  have h : sPairEven n ≠ sPairOdd n := by simp [sPairEven, sPairOdd]
  rw [State.storePairS, readS_writeS_other_word _ _ h, readS_writeS_same]

theorem readS_storePairS_odd (k : Fin 4) (n : Fin 128) : (s.storePairS k n).readS k (sPairOdd n) = s.br := by
  rw [State.storePairS, readS_writeS_same]

theorem readS_storePairS_other {k k' : Fin 4} {n : Fin 128} {j : Fin 256}
    (h : k' ≠ k ∨ (j ≠ sPairEven n ∧ j ≠ sPairOdd n)) : (s.storePairS k n).readS k' j = s.readS k' j := by
  rw [State.storePairS, readS_writeS_other _ _ (h.imp_right And.right), readS_writeS_other _ _ (h.imp_right And.left)]

end Sys2Proof.Machine
end

