-- ==== Sys2Proof/Laws/Ops.lean ====
section
/-! SUPPORT. What the shared operations do, said once: the command step of 30_encoding.md rule R77 and the four index
operand forms. -/

namespace Sys2Proof.Machine

variable {α : Type}

/-- Blocked while ERR = 1 (60_exceptions.md rule R203). -/
theorem command_blocked (c : Except ErrorCode α) (f : α → State → State) {s : State} (h : s.err = true) :
    command c f s = .next s := by
  simp [command, h]

/-- A failing check takes its CommandError (rule R202). -/
theorem command_error (code : ErrorCode) (f : α → State → State) {s : State} (h : s.err = false) :
    command (.error code) f s = .next (s.raiseError code) := by
  simp [command, h]

/-- A passing check has the command's effect. -/
theorem command_ok (x : α) (f : α → State → State) {s : State} (h : s.err = false) :
    command (.ok x) f s = .next (f x s) := by
  simp [command, h]

/-- Everything a command step can do. -/
theorem command_cases {c : Except ErrorCode α} {f : α → State → State} {s t : State}
    (h : command c f s = .next t) :
    (s.err = true ∧ t = s) ∨
    (s.err = false ∧ ∃ code, c = .error code ∧ t = s.raiseError code) ∨
    (s.err = false ∧ ∃ x, c = .ok x ∧ t = f x s) := by
  cases he : s.err with
  | true =>
    rw [command_blocked c f he] at h
    cases h
    exact .inl ⟨rfl, rfl⟩
  | false =>
    cases c with
    | error code =>
      rw [command_error code f he] at h
      cases h
      exact .inr (.inl ⟨rfl, code, rfl, rfl⟩)
    | ok x =>
      rw [command_ok x f he] at h
      cases h
      exact .inr (.inr ⟨rfl, x, rfl, rfl⟩)

/-- A command step always completes (rule R77). -/
theorem command_completes (c : Except ErrorCode α) (f : α → State → State) (s : State) :
    ∃ t, command c f s = .next t := by
  unfold command
  split
  · exact ⟨_, rfl⟩
  · split <;> exact ⟨_, rfl⟩

theorem pIndex_of_le {i : BitVec 8} (h : i.toNat ≤ 17) : pIndex i = .ok ⟨i.toNat, by omega⟩ := by
  simp [pIndex, h]

theorem pIndex_of_gt {i : BitVec 8} (h : 17 < i.toNat) : pIndex i = .error .indexRange := by
  simp [pIndex, Nat.not_le.mpr h]

theorem pPair_of_even {i : BitVec 8} (h : i.toNat ≤ 16) (he : i.toNat % 2 = 0) :
    pPair i = .ok ⟨i.toNat / 2, by omega⟩ := by
  simp [pPair, h, he]

theorem pPair_of_odd {i : BitVec 8} (h : i.toNat ≤ 16) (ho : i.toNat % 2 = 1) : pPair i = .error .indexAlign := by
  simp [pPair, h, ho]

theorem pPair_of_gt {i : BitVec 8} (h : 16 < i.toNat) : pPair i = .error .indexRange := by
  simp [pPair, Nat.not_le.mpr h]

theorem sPair_of_even {i : BitVec 8} (k : BitVec 2) (he : i.toNat % 2 = 0) :
    sPair k i = .ok (⟨k.toNat, k.isLt⟩, ⟨i.toNat / 2, by have := i.isLt; omega⟩) := by
  simp [sPair, he]

theorem sPair_of_odd {i : BitVec 8} (k : BitVec 2) (ho : i.toNat % 2 = 1) : sPair k i = .error .indexAlign := by
  simp [sPair, ho]

end Sys2Proof.Machine
end

