-- ==== Sys2Proof/Laws/PerInstr.lean ====
section
/-! SUPPORT. Per instruction: the fields of the CMD word its encoding gives (30_encoding.md rules R71, R73, R74). -/

namespace Sys2Proof.Laws

/-- The encoding of a command carries its row's OP in CMD[31:28] and 0 in RSV. -/
def EncodeFields.Statement (i : Instr) : Prop :=
  opField (encode i).cmd = i.op.row.code ∧ rsvField (encode i).cmd = 0

theorem EncodeFields.nop : EncodeFields.Statement .nop := ⟨opField_cmdWord .., rsvField_cmdWord ..⟩

theorem EncodeFields.init : EncodeFields.Statement .init := ⟨opField_cmdWord .., rsvField_cmdWord ..⟩

theorem EncodeFields.wipe : EncodeFields.Statement .wipe := ⟨opField_cmdWord .., rsvField_cmdWord ..⟩

theorem EncodeFields.ldblk (a b : Word) : EncodeFields.Statement (.ldblk a b) :=
  ⟨opField_cmdWord .., rsvField_cmdWord ..⟩

theorem EncodeFields.xblk (a b : Word) : EncodeFields.Statement (.xblk a b) :=
  ⟨opField_cmdWord .., rsvField_cmdWord ..⟩

theorem EncodeFields.enc : EncodeFields.Statement .enc := ⟨opField_cmdWord .., rsvField_cmdWord ..⟩

theorem EncodeFields.feval (a : Word) : EncodeFields.Statement (.feval a) :=
  ⟨opField_cmdWord .., rsvField_cmdWord ..⟩

theorem EncodeFields.xorp (i : BitVec 8) (a : Word) : EncodeFields.Statement (.xorp i a) :=
  ⟨opField_cmdWord .., rsvField_cmdWord ..⟩

theorem EncodeFields.wrp (i : BitVec 8) (a : Word) : EncodeFields.Statement (.wrp i a) :=
  ⟨opField_cmdWord .., rsvField_cmdWord ..⟩

theorem EncodeFields.stp (i : BitVec 8) : EncodeFields.Statement (.stp i) :=
  ⟨opField_cmdWord .., rsvField_cmdWord ..⟩

theorem EncodeFields.wrs (k : BitVec 2) (i : BitVec 8) (a : Word) : EncodeFields.Statement (.wrs k i a) :=
  ⟨opField_cmdWord .., rsvField_cmdWord ..⟩

theorem EncodeFields.sts (k : BitVec 2) (i : BitVec 8) : EncodeFields.Statement (.sts k i) :=
  ⟨opField_cmdWord .., rsvField_cmdWord ..⟩

theorem EncodeFields.rdp (i : BitVec 8) : EncodeFields.Statement (.rdp i) :=
  ⟨opField_cmdWord .., rsvField_cmdWord ..⟩

theorem EncodeFields.rds (k : BitVec 2) (i : BitVec 8) : EncodeFields.Statement (.rds k i) :=
  ⟨opField_cmdWord .., rsvField_cmdWord ..⟩

end Sys2Proof.Laws
end

