-- ==== Sys2Proof/Laws/Step.lean ====
section
/-! SUPPORT. What a step and a host's sequence do, in terms of the transaction or the input they take. -/

namespace Sys2Proof.Machine

theorem step_of_port_nil {s : State} (h : s.port = []) : step s = .next s := by
  simp [step, takeInput, h]

theorem step_of_port_cons {s : State} {i : HostInput} {rest : List HostInput} (h : s.port = i :: rest) :
    step s = acceptInput i { s with port := rest } := by
  simp [step, takeInput, h]

/-- Everything a step can do. -/
theorem step_cases {s t : State} (h : step s = .next t) :
    (s.port = [] ∧ t = s) ∨
    (∃ c rest, s.port = ⟨true, c⟩ :: rest ∧ t = { State.reset with port := rest }) ∨
    (∃ rest, s.port = ⟨false, none⟩ :: rest ∧ t = { s with port := rest }) ∨
    (∃ tr rest, s.port = ⟨false, some tr⟩ :: rest ∧ execute tr { s with port := rest } = .next t) := by
  match hp : s.port with
  | [] =>
    rw [step_of_port_nil hp] at h
    cases h
    exact .inl ⟨rfl, rfl⟩
  | ⟨true, c⟩ :: rest =>
    rw [step_of_port_cons hp] at h
    cases h
    exact .inr (.inl ⟨c, rest, rfl, rfl⟩)
  | ⟨false, none⟩ :: rest =>
    rw [step_of_port_cons hp] at h
    cases h
    exact .inr (.inr (.inl ⟨rest, rfl, rfl⟩))
  | ⟨false, some tr⟩ :: rest =>
    rw [step_of_port_cons hp] at h
    exact .inr (.inr (.inr ⟨tr, rest, rfl, h⟩))

theorem execute_of_decode {t : Transaction} {i : Instr} (h : decode t = .ok i) (s : State) :
    execute t s = exec i s := by
  simp [execute, h]

/-- A transaction that fails Check takes its CommandError, or is blocked. -/
theorem execute_of_check_ne {t : Transaction} (h : check t.cmd ≠ .noError) (s : State) :
    execute t s = .next (if s.err then s else s.raiseError (check t.cmd)) := by
  cases he : s.err <;> simp [execute, decode_of_check_ne h, command, he]

@[simp] theorem andThen_next {α β : Type} (x : α) (f : α → Host.Outcome β Fault Refusal) :
    andThen (.next x) f = f x := rfl

/-- A command step neither reads nor writes the host's pending inputs, where its effect does not. -/
theorem command_with_port {α : Type} (c : Except ErrorCode α) {f : α → State → State} (q : List HostInput)
    (hf : ∀ x s, f x { s with port := q } = { f x s with port := q }) (s : State) :
    ∃ u, command c f s = .next u ∧ command c f { s with port := q } = .next { u with port := q } := by
  by_cases he : s.err = true
  · exact ⟨s, command_blocked c f he, command_blocked c f (s := { s with port := q }) he⟩
  · have he := Bool.not_eq_true _ ▸ he
    cases c with
    | error code => exact ⟨_, command_error code f he, command_error code f (s := { s with port := q }) he⟩
    | ok x => exact ⟨_, command_ok x f he, (command_ok x f (s := { s with port := q }) he).trans (by rw [hf])⟩

/-- No command reads or writes the host's pending inputs. -/
theorem exec_with_port (i : Instr) (q : List HostInput) (s : State) :
    ∃ u, exec i s = .next u ∧ exec i { s with port := q } = .next { u with port := q } := by
  cases i <;>
    simp only [exec, execNop, execInit, execWipe, execLdblk, execXblk, execEnc, execFeval, execXorp, execWrp, execStp,
      execWrs, execSts, execRdp, execRds] <;>
    exact command_with_port _ q (fun _ _ => rfl) s

theorem run_zero (s : State) : core.run 0 s = .next s := rfl

/-- One step, and then the rest of the run. -/
theorem run_succ (n : Nat) (s : State) : core.run (n + 1) s = andThen (step s) (core.run n) := by
  have h : core.step s = step s := rfl
  simp only [Host.Core.run]
  rw [h]
  cases step s <;> rfl

@[simp] theorem issueAll_nil (s : State) : issueAll [] s = .next s := rfl

theorem issueAll_cons (t : Transaction) (ts : List Transaction) (s : State) :
    issueAll (t :: ts) s = andThen (execute t s) (issueAll ts) := by
  cases h : execute t s <;> simp [issueAll, andThen, h]

theorem issueAll_append (ts us : List Transaction) (s : State) :
    issueAll (ts ++ us) s = andThen (issueAll ts s) (issueAll us) := by
  induction ts generalizing s with
  | nil => rfl
  | cons t ts ih =>
    rw [List.cons_append, issueAll_cons, issueAll_cons]
    cases execute t s with
    | next s' => exact ih s'
    | fault r => rfl
    | refused r => rfl

theorem issue_append (is js : List Instr) (s : State) :
    issue (is ++ js) s = andThen (issue is s) (issue js) := by
  simp only [issue, List.map_append, issueAll_append]
  rfl

end Sys2Proof.Machine
end

