-- ==== Sys2Proof/Tests/Slice0.lean ====
section
/-! SUPPORT. Tests of one step each, with their expected results from spec/ (95_test_vectors.md and the examples of the
rules, as each comment says), the WellFormed smoke tests, and one witness per statement that has hypotheses. -/

namespace Sys2Proof.Tests

open Sys2Proof Sys2Proof.Machine

/-- A property of the next state; false where there is none. -/
def nextHas (o : Host.Outcome State Fault Refusal) (f : State → Bool) : Bool :=
  match o with
  | .next s => f s
  | .fault _ => false
  | .refused _ => false

/-- P, S and the registers all 0. -/
def zeros : State := State.reset.clearData

/-- The reset state with a block. -/
def withBlock (l r : Word) : State := State.reset.setBlock l r

/-- The code of a CMD, as a number (60_exceptions.md rule R200). -/
def codeOf (cmd : Word) : Nat := (codeNumber (check cmd)).toNat

/-! ### WellFormed: one ill-formed term for each check -/

theorem test_wellFormed_refuses_xorp_18 : (Instr.xorp 18 0).wellFormed = false := by decide

theorem test_wellFormed_refuses_wrp_18 : (Instr.wrp 18 0).wellFormed = false := by decide

theorem test_wellFormed_refuses_rdp_255 : (Instr.rdp 255).wellFormed = false := by decide

theorem test_wellFormed_refuses_stp_18 : (Instr.stp 18).wellFormed = false := by decide

theorem test_wellFormed_refuses_stp_3 : (Instr.stp 3).wellFormed = false := by decide

theorem test_wellFormed_refuses_sts_odd : (Instr.sts 3 1).wellFormed = false := by decide

/-! ### Decoding: every row's word as 30_encoding.md rules R71 and R73 write it, most significant bit first -/

theorem test_decode_nop : decode ⟨0b00000000000000000000000000000000, 1, 2⟩ = .ok .nop := by decide

theorem test_decode_init : decode ⟨0b00010000000000000000000000000000, 0, 0⟩ = .ok .init := by decide

theorem test_decode_wipe : decode ⟨0b00100000000000000000000000000000, 0, 0⟩ = .ok .wipe := by decide

theorem test_decode_ldblk : decode ⟨0b00110000000000000000000000000000, 5, 6⟩ = .ok (.ldblk 5 6) := by decide

theorem test_decode_xblk : decode ⟨0b01000000000000000000000000000000, 3, 9⟩ = .ok (.xblk 3 9) := by decide

theorem test_decode_enc : decode ⟨0b01010000000000000000000000000000, 0, 0⟩ = .ok .enc := by decide

theorem test_decode_feval : decode ⟨0b01100000000000000000000000000000, 7, 8⟩ = .ok (.feval 7) := by decide

theorem test_decode_xorp : decode ⟨0b01110000000000000000000000010001, 7, 0⟩ = .ok (.xorp 17 7) := by decide

theorem test_decode_wrp : decode ⟨0b10000000000000000000000000000101, 7, 0⟩ = .ok (.wrp 5 7) := by decide

theorem test_decode_stp : decode ⟨0b10010000000000000000000000010000, 0, 0⟩ = .ok (.stp 16) := by decide

theorem test_decode_wrs : decode ⟨0b10100000000000000000000111111110, 7, 0⟩ = .ok (.wrs 1 254 7) := by decide

theorem test_decode_sts : decode ⟨0b10110000000000000000001011111110, 0, 0⟩ = .ok (.sts 2 254) := by decide

theorem test_decode_rdp : decode ⟨0b11000000000000000000000000000001, 0, 0⟩ = .ok (.rdp 1) := by decide

theorem test_decode_rds : decode ⟨0b11010000000000000000001111111111, 0, 0⟩ = .ok (.rds 3 255) := by decide

/-- The table's word with no bits for A and B: both 0. -/
theorem test_decodeTableWord : decodeTableWord 32 0x30000000 = some (.ldblk 0 0) := by decide

/-- A is bits 63..32 and B bits 95..64. -/
theorem test_decodeTableWord_operands : decodeTableWord 96 0x000000060000000530000000 = some (.ldblk 5 6) := by decide

/-- 95_test_vectors.md section 3.8, the whole table in its order. -/
theorem test_check_codes :
    [0xE0000000, 0xF0000000, 0xFFFFFFFF, 0x50000400, 0x08000000, 0x00000100, 0x50000001, 0x10000001, 0x70000100,
      0x80100012, 0x70000012, 0x80000011].map codeOf = [1, 1, 1, 2, 2, 2, 2, 2, 2, 2, 3, 0] ∧
    [0x80000012, 0xC00000FF, 0x90000010, 0x90000011, 0x90000012, 0x90000003, 0xB00000FF, 0xB0000301, 0xB00003FE,
      0xA00003FF, 0xD00003FF, 0x00000000].map codeOf = [3, 3, 0, 3, 3, 4, 4, 4, 0, 0, 0, 0] := by decide

/-! ### The constant tables: the check values and anchor words of 10_state.md rule R28 -/

/-- Every word of the five tables, in the order of rule R28. -/
def allPiWords : List Word := piPWords ++ piS0Words ++ piS1Words ++ piS2Words ++ piS3Words

set_option maxRecDepth 8000 in
theorem test_pi_words_xor : allPiWords.foldl (· ^^^ ·) 0 = 0x6FFA520A := by decide +kernel

set_option maxRecDepth 8000 in
theorem test_pi_words_sum : allPiWords.foldl (· + ·) 0 = 0x6BBF03AC := by decide +kernel

theorem test_pi_anchors :
    piP[17] = 0x8979FB1B ∧ piS[0][0] = 0xD1310BA6 ∧ piS[1][0] = 0x4B7A70E9 ∧ piS[2][0] = 0xE93D5A68 ∧
      piS[3][0] = 0x3A39CE37 ∧ piS[3][255] = 0x3AC372E6 := by decide

/-! ### One step of each command -/

theorem test_nop : nextHas (exec .nop (withBlock 1 2)) (fun s => s.bl == 1 && s.br == 2 && !s.err) = true := by decide

/-- Section 3.5: INIT restores P[0] and leaves BL and BR. -/
theorem test_init : nextHas (exec .init (zeros.setBlock 1 2))
    (fun s => s.readP 0 == 0x243F6A88 && s.bl == 1 && s.br == 2) = true := by decide

theorem test_wipe : nextHas (exec .wipe (withBlock 1 2))
    (fun s => s.readP 17 == 0 && s.readS 3 255 == 0 && s.bl == 0 && s.br == 0 && s.y == 0) = true := by decide

/-- Section 3.6. -/
theorem test_ldblk : nextHas (exec (.ldblk 0x4F727068 0x65616E42) .reset)
    (fun s => s.bl == 0x4F727068 && s.br == 0x65616E42) = true := by decide

/-- Section 3.6. -/
theorem test_xblk : nextHas (exec (.xblk 0x12345678 0xFFFFFFFF) (withBlock 0x12345678 0x9ABCDEF0))
    (fun s => s.bl == 0 && s.br == 0x6543210F) = true := by decide

/-- Section 3.3. -/
theorem test_enc : nextHas (exec .enc (withBlock 0x01234567 0x89ABCDEF))
    (fun s => s.bl == 0x738E078D && s.br == 0x4C8703A6) = true := by decide

/-- Section 3.3, after WIPE. -/
theorem test_enc_zeros : nextHas (exec .enc (zeros.setBlock 0x11111111 0x22222222))
    (fun s => s.bl == 0x22222222 && s.br == 0x11111111) = true := by decide

/-- Section 3.1, a word with four different bytes. -/
theorem test_feval : nextHas (exec (.feval 0xDEADBEEF) .reset) (fun s => s.y == 0x5713DC03) = true := by decide

/-- Section 3.10: b3 is the low byte. -/
theorem test_feval_low_byte : nextHas (exec (.feval 0x000000FF) .reset) (fun s => s.y == 0x305999CD) = true := by decide

/-- Section 3.7. -/
theorem test_xorp : nextHas (exec (.xorp 17 0xFFFFFFFF) .reset) (fun s => s.readP 17 == 0x768604E4) = true := by decide

theorem test_wrp : nextHas (exec (.wrp 17 0xDEADBEEF) .reset)
    (fun s => s.readP 17 == 0xDEADBEEF && s.readP 16 == 0x9216D5D9) = true := by decide

/-- Section 3.7. -/
theorem test_stp : nextHas (exec (.stp 16) (withBlock 1 2))
    (fun s => s.readP 16 == 1 && s.readP 17 == 2 && s.readP 15 == 0xB5470917) = true := by decide

theorem test_wrs : nextHas (exec (.wrs 3 255 0x01234567) .reset)
    (fun s => s.readS 3 255 == 0x01234567 && s.readS 2 255 == 0x406000E0) = true := by decide

/-- Section 3.7. -/
theorem test_sts : nextHas (exec (.sts 1 254) (withBlock 0xAAAAAAAA 0x55555555))
    (fun s => s.readS 1 254 == 0xAAAAAAAA && s.readS 1 255 == 0x55555555) = true := by decide

/-- Section 3.7. -/
theorem test_rdp : nextHas (exec (.rdp 16) .reset) (fun s => s.y == 0x9216D5D9) = true := by decide

/-- Section 3.7. -/
theorem test_rds : nextHas (exec (.rds 1 255) .reset) (fun s => s.y == 0xDB83ADF7) = true := by decide

/-- 95_test_vectors.md P4: STATUS word 0x00000041 after `STP 3`, nothing stored. -/
theorem test_index_align_status : nextHas (exec (.stp 3) (withBlock 5 6))
    (fun s => s.statusWord == 0x00000041 && s.readP 3 == 0x03707344 && s.bl == 5) = true := by decide

/-- P4: a blocked command. -/
theorem test_blocked : nextHas (exec (.ldblk 7 8) ((withBlock 5 6).raiseError .indexAlign))
    (fun s => s.bl == 5 && s.br == 6 && s.ecode == .indexAlign) = true := by decide

/-- Section 3.4: `60000000 00000000 DEADBEEF`, the B word is ignored. -/
theorem test_step_ignores_b : nextHas (step (State.reset.present ⟨0x60000000, 0, 0xDEADBEEF⟩))
    (fun s => s.y == 0x2FCFF51E && s.port == []) = true := by decide

/-- Section 3.8: reset after an error. -/
theorem test_step_reset : nextHas (step { State.reset.raiseError .illegalOpcode with port := [⟨true, some ⟨0, 0, 0⟩⟩] })
    (fun s => !s.err && s.ecode == .noError && s.readP 0 == 0x243F6A88) = true := by decide

theorem test_withFetchWord : nextHas (step (State.reset.withFetchWord 32 0xC0000001))
    (fun s => s.y == 0x85A308D3) = true := by decide

/-! ### Host sequences and assembler -/

/-- Section 3.9, the stream words of `abcd` 00. -/
theorem test_streamWord : [0, 1, 2, 3, 4, 5].map (fun i => streamWord (keyPrime [0x61, 0x62, 0x63, 0x64]) (4 * i)) =
    [0x61626364, 0x00616263, 0x64006162, 0x63640061, 0x62636400, 0x61626364] := by decide

/-- 20_memory.md rule R51, worked example. -/
theorem test_blockOfBytes : blockOfBytes #v[0x4F, 0x72, 0x70, 0x68, 0x65, 0x61, 0x6E, 0x42] =
    (0x4F727068, 0x65616E42) := by decide

/-- Section 3.9, the salt words of 00 01 .. 0F. -/
theorem test_saltWords : saltWords #v[0, 1, 2, 3, 4, 5, 6, 7, 8, 9, 10, 11, 12, 13, 14, 15] =
    #v[0x00010203, 0x04050607, 0x08090A0B, 0x0C0D0E0F] := by decide

/-- Section 3.9, the first output row: the bytes of the six words with the last one dropped. -/
theorem test_outputOf : (outputOf #v[0xCBDE9D37, 0xB896F4D5, 0x0B1276C4, 0x9C470046, 0x6D77E9C5, 0x71059422]).getLast? =
    some 0x94 := by decide

/-- 30_encoding.md rule R79: STN 520 is `STS 3, 254`. -/
theorem test_stn : [0, 8, 9, 137, 520].map stn = [.stp 0, .stp 16, .sts 0 0, .sts 1 0, .sts 3 254] := by decide

/-- Section 1.1: a 73-byte key. -/
theorem test_key_too_long : (match bcryptHash false (List.replicate 73 0) (List.replicate 15 0) 3 .reset with
    | .next (.error e, _) => e == .invalidKeyLength
    | _ => false) = true := by decide

/-! ### Witnesses: states and operands that meet the hypotheses of each statement -/

theorem witness_DecodeOfEncodeIsSelf :
    (Instr.xorp 17 0).wellFormed = true ∧ (Instr.stp 16).wellFormed = true ∧ (Instr.sts 3 254).wellFormed = true := by
  decide

theorem witness_DecodedCommandHasOneWord : decode ⟨0x90000010, 1, 2⟩ = .ok (.stp 16) := by decide

theorem witness_UnreadOperandsHaveNoEffect :
    (0xD00003FF#32).toNat / 2 ^ 28 ∈ [0x0, 0x1, 0x2, 0x5, 0x9, 0xB, 0xC, 0xD, 0xE, 0xF] ∧
    (0xA00003FF#32).toNat / 2 ^ 28 ∈ [0x6, 0x7, 0x8, 0xA] := by decide

theorem witness_StepRunsThePresentedCommand :
    (State.reset.present ⟨0x50000000, 0, 0⟩).port = ⟨false, some ⟨0x50000000, 0, 0⟩⟩ :: [] ∧
    decode ⟨0x50000000, 0, 0⟩ = .ok .enc ∧ decodeTableWord 32 0x50000000 = some .enc := by decide

theorem witness_ExecuteFollowsTheCommandStep :
    (State.reset.raiseError .indexAlign).err = true ∧ State.reset.err = false ∧
    check 0xE0000000 ≠ .noError ∧ check 0xB00003FE = .noError := by decide

theorem witness_CommandErrorWritesOnlyStatus :
    (State.reset.present ⟨0x90000011, 0, 0⟩).port = ⟨false, some ⟨0x90000011, 0, 0⟩⟩ :: [] ∧
    (State.reset.present ⟨0x90000011, 0, 0⟩).err = false ∧ check 0x90000011 ≠ .noError := by decide

theorem witness_ErrorBlocksEveryCommand : (State.reset.raiseError .indexRange).err = true := rfl

theorem witness_FirstErrorStandsUntilReset :
    ((State.reset.raiseError .indexAlign).present ⟨0x10000000, 0, 0⟩).err = true ∧
    ((State.reset.raiseError .indexAlign).present ⟨0x10000000, 0, 0⟩).noResetPending ∧
    core.run 1 ((State.reset.raiseError .indexAlign).present ⟨0x10000000, 0, 0⟩) =
      .next (State.reset.raiseError .indexAlign) :=
  ⟨rfl, by decide, rfl⟩

theorem witness_OnlyResetClearsTheError :
    step { State.reset.raiseError .indexAlign with port := [⟨true, none⟩] } = .next State.reset ∧
    ({ State.reset.raiseError .indexAlign with port := [⟨true, none⟩] } : State).err = true ∧
    State.reset.err = false :=
  ⟨rfl, rfl, rfl⟩

theorem witness_StepKeepsStatusConsistent :
    State.reset.statusConsistent ∧ (State.reset.present ⟨0xE0000000, 0, 0⟩).statusConsistent ∧
    step (State.reset.present ⟨0xE0000000, 0, 0⟩) = .next (State.reset.raiseError .illegalOpcode) :=
  ⟨by decide, by decide, rfl⟩

theorem witness_ResetWinsOverThePresentedCommand :
    ({ zeros with port := [⟨true, some ⟨0x50000000, 0, 0⟩⟩] } : State).port =
      ⟨true, some ⟨0x50000000, 0, 0⟩⟩ :: [] := rfl

theorem witness_PresentedTransactionsRunInOrder :
    ((State.reset.present ⟨0x90000000, 0, 0⟩).present ⟨0x50000000, 0, 0⟩).presents
      [⟨0x50000000, 0, 0⟩, ⟨0x90000000, 0, 0⟩] [] := by decide

/-- For NOP, INIT, WIPE, LDBLK, XBLK, ENC and FEVAL: a state, the rows' OP values, and a legal and an illegal rest. -/
theorem witness_commands_without_index :
    State.reset.err = false ∧
    [0x00000000#32, 0x10000000#32, 0x20000000#32, 0x30000000#32, 0x40000000#32, 0x50000000#32, 0x60000000#32].map
      (fun c => (c.toNat / 2 ^ 28, c.toNat % 2 ^ 28)) = [(0, 0), (1, 0), (2, 0), (3, 0), (4, 0), (5, 0), (6, 0)] ∧
    (0x5FFFFFFF#32).toNat / 2 ^ 28 = 0x5 ∧ (0x5FFFFFFF#32).toNat % 2 ^ 28 ≠ 0 := by decide

theorem witness_WipeClearsAllData : State.reset.err = false ∧ exec .wipe State.reset = .next zeros := ⟨rfl, rfl⟩

theorem witness_XblkXorsTheBlock : State.reset.err = false ∧
    exec (.xblk 5 6) State.reset = .next (withBlock 5 6) := ⟨rfl, rfl⟩

/-- For XORP, WRP, RDP and STP: IDX at the edges of its range, in and out, and CMD words of each clause. -/
theorem witness_commands_on_P :
    State.reset.err = false ∧
    17 < (18#8).toNat ∧ 16 < (17#8).toNat ∧ (15#8).toNat ≤ 16 ∧ (15#8).toNat % 2 = 1 ∧
    [0x70000011#32, 0x80000012#32, 0xC0000011#32, 0x90000010#32].map
      (fun c => (c.toNat / 2 ^ 28, c.toNat % 2 ^ 28)) = [(0x7, 17), (0x8, 18), (0xC, 17), (0x9, 16)] ∧
    [0x70000100#32, 0x8FFFFF00#32, 0xC0000400#32, 0x90000100#32].map
      (fun c => decide (c.toNat / 2 ^ 8 % 2 ^ 20 ≠ 0)) = [true, true, true, true] := by decide

theorem witness_XorpXorsOneWordOfP : State.reset.err = false ∧
    exec (.xorp (BitVec.ofNat 8 (17 : Fin 18)) 1) State.reset =
      .next { State.reset with p := State.reset.p.set 17 (State.reset.p[17] ^^^ 1) } := ⟨rfl, rfl⟩

/-- For WRS, RDS and STS: BOX and IDX at the edges, an odd IDX, and CMD words of each clause. -/
theorem witness_commands_on_S :
    State.reset.err = false ∧ (255#8).toNat % 2 = 1 ∧
    [0xA00003FF#32, 0xD00003FF#32, 0xB00003FE#32].map (fun c => (c.toNat / 2 ^ 28, c.toNat % 2 ^ 28)) =
      [(0xA, 256 * (3#2).toNat + (255#8).toNat), (0xD, 256 * (3#2).toNat + (255#8).toNat),
        (0xB, 256 * (3#2).toNat + (254#8).toNat)] ∧
    [0xA0000400#32, 0xD8000000#32, 0xB0000400#32].map (fun c => decide (c.toNat / 2 ^ 10 % 2 ^ 18 ≠ 0)) =
      [true, true, true] := by decide

theorem witness_RoundFunctionCombinesFourLookups :
    (0xDE00FF01#32).toNat = (0xDE : Fin 256).val * 2 ^ 24 + (0 : Fin 256).val * 2 ^ 16 + (0xFF : Fin 256).val * 2 ^ 8 +
      (1 : Fin 256).val := by decide

theorem witness_EncryptFollowsSixteenRounds :
    ∀ i : Fin 16, (0 : Word) = 0 ^^^ roundF zeros (0 ^^^ zeros.p[i.val]) ∧ (0 : Word) = 0 ^^^ zeros.p[i.val] := by
  decide

theorem witness_EncryptIsInjective : encryptBlock zeros 1 2 = encryptBlock zeros 1 2 := rfl

theorem witness_ControlCommandsFrame :
    exec .nop State.reset = .next State.reset ∧ exec .init zeros = .next State.reset ∧
    exec .wipe State.reset = .next zeros := ⟨rfl, rfl, rfl⟩

theorem witness_BlockCommandsFrame : exec (.ldblk 1 2) State.reset = .next (withBlock 1 2) ∧
    exec .enc (zeros.setBlock 1 2) = .next (zeros.setBlock 2 1) := ⟨rfl, rfl⟩

theorem witness_ResultCommandsFrame :
    exec (.feval 5) zeros = .next zeros ∧ exec (.rdp 17) State.reset = .next (State.reset.setY 0x8979FB1B) ∧
    exec (.rds 3 255) State.reset = .next (State.reset.setY 0x3AC372E6) ∧
    exec (.rdp 18) State.reset = .next (State.reset.raiseError .indexRange) ∧
    (Instr.rdp 17).wellFormed = true := ⟨rfl, rfl, rfl, rfl, rfl⟩

theorem witness_SingleWordWritesFrame :
    exec (.wrp 17 7) State.reset = .next (State.reset.writeP 17 7) ∧
    exec (.wrs 3 255 7) State.reset = .next (State.reset.writeS 3 255 7) ∧
    (16 : Fin 18).val ≠ (17#8).toNat ∧ (17#8).toNat ≤ 17 ∧ (2 : Fin 4).val ≠ (3#2).toNat ∧
    (254 : Fin 256).val ≠ (255#8).toNat := ⟨rfl, rfl, by decide, by decide, by decide, by decide⟩

theorem witness_PairStoresFrame :
    exec (.stp 16) (withBlock 1 2) = .next ((withBlock 1 2).storePairP 8) ∧
    exec (.stp 15) State.reset = .next (State.reset.raiseError .indexAlign) ∧
    exec (.sts 3 254) (withBlock 1 2) = .next ((withBlock 1 2).storePairS 3 127) ∧
    exec (.sts 3 255) State.reset = .next (State.reset.raiseError .indexAlign) := ⟨rfl, rfl, rfl, rfl⟩

theorem witness_OnlyNamedCommandsWriteEachElement :
    exec (.wrp 0 0) State.reset = .next (State.reset.writeP 0 0) ∧ (State.reset.writeP 0 0).p ≠ State.reset.p ∧
    exec (.wrs 0 0 0) State.reset = .next (State.reset.writeS 0 0 0) ∧
    (State.reset.writeS 0 0 0).readS 0 0 ≠ State.reset.readS 0 0 ∧
    exec (.ldblk 1 0) State.reset = .next (withBlock 1 0) ∧ (withBlock 1 0).bl ≠ State.reset.bl ∧
    exec (.rdp 0) State.reset = .next (State.reset.setY 0x243F6A88) ∧
    (State.reset.setY 0x243F6A88).y ≠ State.reset.y ∧
    exec (.stp 17) State.reset = .next (State.reset.raiseError .indexRange) ∧
    (State.reset.raiseError .indexRange).err ≠ State.reset.err :=
  ⟨rfl, by decide, rfl, by decide, rfl, by decide, rfl, by decide, rfl, by decide⟩

theorem witness_RepeatedCommandLeavesTheSameState :
    (Instr.wrp 0 7).op ∉ [Op.enc, .feval, .xblk, .xorp] ∧
    exec (.wrp 0 7) State.reset = .next (State.reset.writeP 0 7) := ⟨by decide, rfl⟩

theorem witness_StnStoresTheNthPair : State.reset.err = false ∧ 520 ≤ 520 ∧ ¬ 521 ≤ 520 := by decide

theorem witness_LongestKeyNeverReachesItsNul : (List.replicate 72 (0x61 : Byte)).length = 72 := by decide

/-- For KeyMix, the setup, the driver and bcrypt_hash: two different cores with no error. -/
theorem witness_host_sequences_start : State.reset.err = false ∧ zeros.err = false ∧ zeros.p ≠ State.reset.p := by decide

/-- Each clause of the input checks at the edges of its range. -/
theorem witness_InputChecksComeFirstInOrder :
    (List.replicate 73 (0 : Byte)).length > 72 ∧ (List.replicate 72 (0 : Byte)).length ≤ 72 ∧
    (List.replicate 15 (0 : Byte)).length ≠ 16 ∧ (List.replicate 16 (0 : Byte)).length = 16 ∧
    (3 < 4 ∨ 3 > 31) ∧ (32 < 4 ∨ 32 > 31) ∧ 4 ≤ 31 := by decide

theorem witness_BcryptReturnsTwentyThreeBytes :
    ([] : List Byte).length ≤ 72 ∧ (List.replicate 16 (0 : Byte)).length = 16 ∧ 4 ≤ 4 ∧ 4 ≤ 31 ∧
    State.reset.err = false := by decide

end Sys2Proof.Tests
end

