-- ==== Sys2Proof/Proofs/Bytes.lean ====
section
/-! Byte and word conversion (00_scope.md rule R9): BE32 as a number, its inverse BYTES_BE, and the words of BE32S. -/

namespace Sys2Proof.Machine

theorem toNat_be32 (b0 b1 b2 b3 : Byte) :
    (be32 b0 b1 b2 b3).toNat = b0.toNat * 2 ^ 24 + b1.toNat * 2 ^ 16 + b2.toNat * 2 ^ 8 + b3.toNat := by
  simp only [be32, append_toNat_eq]
  omega

/-- Each byte is a base 256 digit of the number BE32 gives. -/
@[simp] theorem bytesBE_be32 (b0 b1 b2 b3 : Byte) : bytesBE (be32 b0 b1 b2 b3) = [b0, b1, b2, b3] := by
  simp only [bytesBE, List.cons.injEq, and_true]
  refine ⟨?_, ?_, ?_, ?_⟩ <;> apply BitVec.eq_of_toNat_eq <;>
    rw [BitVec.extractLsb'_toNat, toNat_be32, Nat.shiftRight_eq_div_pow] <;> omega

/-- The four bytes are adjacent slices of the word, so appending them joins them into the whole of it. -/
theorem be32_extractLsb' (w : Word) :
    be32 (w.extractLsb' 24 8) (w.extractLsb' 16 8) (w.extractLsb' 8 8) (w.extractLsb' 0 8) = w := by
  simp only [be32, BitVec.extractLsb'_append_extractLsb'_eq_extractLsb', BitVec.extractLsb'_eq_self]

theorem be32s_getElem {n : Nat} (bytes : Vector Byte (4 * n)) (i : Fin n) :
    (be32s bytes)[i] = be32 bytes[4 * i.val] bytes[4 * i.val + 1] bytes[4 * i.val + 2] bytes[4 * i.val + 3] := by
  simp [be32s]

/-- Settles O46, from the number BE32 gives, the two inverse laws and the words of BE32S. -/
theorem byteConversionIsBigEndian : Obligations.ByteConversionIsBigEndian :=
  ⟨fun b0 b1 b2 b3 => ⟨toNat_be32 b0 b1 b2 b3, bytesBE_be32 b0 b1 b2 b3⟩,
    fun w => ⟨_, _, _, _, rfl, be32_extractLsb' w⟩,
    fun _ bytes i => be32s_getElem bytes i⟩

end Sys2Proof.Machine
end

