-- ==== Sys2Proof/Proofs/Writes.lean ====
section
/-! What each command may write (10_state.md rules R21 to R25): its index form passes exactly where Check passes, and
its effect writes only the elements whose rules name its opcode. -/

namespace Sys2Proof.Machine

/-- An operand form resolves where Check reports no error, and otherwise reports Check's code. -/
def AgreesWithCheck {α : Type} (c : Except ErrorCode α) (code : ErrorCode) : Prop :=
  (code = .noError ∧ ∃ x, c = .ok x) ∨ (code ≠ .noError ∧ c = .error code)

/-- Check of an encoded word looks at IDX only, where the row uses BOX or BOX is 0. -/
theorem check_cmdWord_eq_checkIdx {o : Op} {k : BitVec 2} (hk : k = 0 ∨ o.row.usesBox = true) (i : BitVec 8) :
    check (cmdWord o k i) = o.checkIdx i := by
  rcases hk with h | h <;> simp [check_cmdWord, h]

theorem noIndex_agrees {o : Op} (ho : o.row.maxIdx = none) :
    AgreesWithCheck noIndex (check (cmdWord o 0 0)) := by
  rw [check_cmdWord_eq_checkIdx (.inl rfl)]
  exact .inl (by simp [Op.checkIdx, ho, noIndex])

theorem pIndex_agrees {o : Op} (ho : o.row = ⟨o.row.code, false, some 17, false⟩) (i : BitVec 8) :
    AgreesWithCheck (pIndex i) (check (cmdWord o 0 i)) := by
  rw [check_cmdWord_eq_checkIdx (.inl rfl), Op.checkIdx, ho]
  rcases Nat.lt_or_ge 17 i.toNat with hgt | hle
  · exact .inr (by simp [hgt, pIndex_of_gt])
  · exact .inl (by simp [hle, pIndex_of_le])

theorem pPair_agrees (i : BitVec 8) : AgreesWithCheck (pPair i) (check (cmdWord .stp 0 i)) := by
  rw [check_cmdWord_eq_checkIdx (.inl rfl), Op.checkIdx, Op.row]
  rcases Nat.lt_or_ge 16 i.toNat with hgt | hle
  · exact .inr (by simp [hgt, pPair_of_gt])
  · rcases Nat.mod_two_eq_zero_or_one i.toNat with he | ho
    · exact .inl (by simp [hle, he, pPair_of_even])
    · exact .inr (by simp [Nat.not_lt.mpr hle, ho, pPair_of_odd hle])

/-- Where every IDX is in range, only a pair store's alignment is left to check. -/
theorem checkIdx_of_maxIdx_255 {o : Op} (ho : o.row.maxIdx = some 255) (i : BitVec 8) :
    o.checkIdx i = if o.row.pair && i.toNat % 2 == 1 then .indexAlign else .noError := by
  have hle : ¬ i.toNat > 255 := by omega
  simp [Op.checkIdx, ho, hle]

theorem sPair_agrees (k : BitVec 2) (i : BitVec 8) : AgreesWithCheck (sPair k i) (check (cmdWord .sts k i)) := by
  rw [check_cmdWord_eq_checkIdx (.inr rfl), checkIdx_of_maxIdx_255 rfl, Op.row]
  rcases Nat.mod_two_eq_zero_or_one i.toNat with he | ho
  · exact .inl (by simp [he, sPair_of_even])
  · exact .inr (by simp [ho, sPair_of_odd])

theorem sIndex_agrees {o : Op} (ho : o.row = ⟨o.row.code, true, some 255, false⟩) (k : BitVec 2) (i : BitVec 8) :
    AgreesWithCheck (sIndex k i) (check (cmdWord o k i)) := by
  rw [check_cmdWord_eq_checkIdx (.inr (by rw [ho])), checkIdx_of_maxIdx_255 (by rw [ho]), ho]
  exact .inl (by simp [sIndex])

/-- From `s` to `t` only elements changed whose rules name opcode `o` as a writer; STATUS did not. -/
structure WritesOnlyNamed (o : Op) (s t : State) : Prop where
  p : t.p ≠ s.p → o ∈ [Op.init, .wipe, .xorp, .wrp, .stp]
  sbox : t.sbox ≠ s.sbox → o ∈ [Op.init, .wipe, .wrs, .sts]
  block : t.bl ≠ s.bl ∨ t.br ≠ s.br → o ∈ [Op.ldblk, .xblk, .enc, .wipe]
  y : t.y ≠ s.y → o ∈ [Op.feval, .rdp, .rds, .wipe]
  err : t.err = s.err
  ecode : t.ecode = s.ecode

namespace WritesOnlyNamed

variable {o : Op} (s : State)

theorem refl : WritesOnlyNamed o s s := by constructor <;> simp

theorem loadTables : WritesOnlyNamed .init s s.loadTables := by constructor <;> simp

theorem clearData : WritesOnlyNamed .wipe s s.clearData := by constructor <;> simp

theorem setBlock (ho : o ∈ [Op.ldblk, .xblk, .enc, .wipe]) (l r : Word) :
    WritesOnlyNamed o s (s.setBlock l r) :=
  { refl s with block := fun _ => ho }

theorem setY (ho : o ∈ [Op.feval, .rdp, .rds, .wipe]) (w : Word) : WritesOnlyNamed o s (s.setY w) :=
  { refl s with y := fun _ => ho }

theorem writeP (ho : o ∈ [Op.init, .wipe, .xorp, .wrp, .stp]) (n : Fin 18) (w : Word) :
    WritesOnlyNamed o s (s.writeP n w) :=
  { refl s with p := fun _ => ho }

theorem storePairP (n : Fin 9) : WritesOnlyNamed .stp s (s.storePairP n) :=
  { refl s with p := fun _ => by decide }

theorem writeS (ho : o ∈ [Op.init, .wipe, .wrs, .sts]) (k : Fin 4) (j : Fin 256) (w : Word) :
    WritesOnlyNamed o s (s.writeS k j w) :=
  { refl s with sbox := fun _ => ho }

theorem storePairS (k : Fin 4) (n : Fin 128) : WritesOnlyNamed .sts s (s.storePairS k n) :=
  { refl s with sbox := fun _ => by decide }

end WritesOnlyNamed

/-- What a command with opcode `o`, on whose CMD Check reports `code`, can do: nothing while ERR = 1, the CommandError
of a failing check, or writes its rules name. -/
def CommandStep (o : Op) (code : ErrorCode) (s t : State) : Prop :=
  (s.err = true ∧ t = s) ∨
  (s.err = false ∧ code ≠ .noError ∧ t = s.raiseError code) ∨
  (s.err = false ∧ code = .noError ∧ WritesOnlyNamed o s t)

theorem commandStep_of_command {α : Type} {c : Except ErrorCode α} {f : α → State → State} {o : Op}
    {code : ErrorCode} {s t : State} (h : command c f s = .next t) (hc : AgreesWithCheck c code)
    (hf : ∀ x, WritesOnlyNamed o s (f x s)) : CommandStep o code s t := by
  rcases command_cases h with hblocked | ⟨he, e, rfl, rfl⟩ | ⟨he, x, rfl, rfl⟩
  · exact .inl hblocked
  · rcases hc with ⟨-, x, hx⟩ | ⟨hne, hcode⟩
    · cases hx
    · cases hcode
      exact .inr (.inl ⟨he, hne, rfl⟩)
  · rcases hc with ⟨hok, -⟩ | ⟨-, hcode⟩
    · exact .inr (.inr ⟨he, hok, hf x⟩)
    · cases hcode

/-- Everything a command can do, by its opcode and the code of its encoding (30_encoding.md rule R77). -/
theorem exec_cases {i : Instr} {s t : State} (h : exec i s = .next t) :
    CommandStep i.op (check (encode i).cmd) s t := by
  cases i <;>
    simp only [exec, execNop, execInit, execWipe, execLdblk, execXblk, execEnc, execFeval, execXorp, execWrp, execStp,
      execWrs, execSts, execRdp, execRds, encode, Instr.op] at h ⊢
  case nop => exact commandStep_of_command h (noIndex_agrees rfl) fun _ => .refl s
  case init => exact commandStep_of_command h (noIndex_agrees rfl) fun _ => .loadTables s
  case wipe => exact commandStep_of_command h (noIndex_agrees rfl) fun _ => .clearData s
  case ldblk | xblk | enc => exact commandStep_of_command h (noIndex_agrees rfl) fun _ => .setBlock s (by decide) _ _
  case feval => exact commandStep_of_command h (noIndex_agrees rfl) fun _ => .setY s (by decide) _
  case xorp | wrp => exact commandStep_of_command h (pIndex_agrees rfl _) fun _ => .writeP s (by decide) _ _
  case stp => exact commandStep_of_command h (pPair_agrees _) fun _ => .storePairP s _
  case wrs => exact commandStep_of_command h (sIndex_agrees rfl _ _) fun _ => .writeS s (by decide) _ _ _
  case sts => exact commandStep_of_command h (sPair_agrees _ _) fun _ => .storePairS s _ _
  case rdp => exact commandStep_of_command h (pIndex_agrees rfl _) fun _ => .setY s (by decide) _
  case rds => exact commandStep_of_command h (sIndex_agrees rfl _ _) fun _ => .setY s (by decide) _

/-- Settles O44, from what a command step can do: a blocked one changes nothing, a failing one STATUS only, and any
other the elements whose rules name it. -/
theorem onlyNamedCommandsWriteEachElement : Obligations.OnlyNamedCommandsWriteEachElement := by
  intro i s t h
  rcases exec_cases h with ⟨-, rfl⟩ | ⟨-, hne, rfl⟩ | ⟨-, -, hw⟩
  · simp
  · simp [hne, State.raiseError]
  · exact ⟨hw.p, hw.sbox, hw.block, hw.y, by simp [hw.err, hw.ecode]⟩

end Sys2Proof.Machine
end

