-- ==== Sys2Proof/Proofs/Status.lean ====
section
/-! The STATUS register (10_state.md rule R25): its invariant at reset and over every step, its word, and the reset
values of rule R30. -/

namespace Sys2Proof.Machine

theorem statusConsistent_raiseError (s : State) {code : ErrorCode} (h : code ≠ .noError) :
    (s.raiseError code).statusConsistent := by
  simp [State.statusConsistent, h]

/-- The invariant speaks of ERR and ECODE only. -/
theorem statusConsistent_congr {s t : State} (he : t.err = s.err) (hc : t.ecode = s.ecode) :
    t.statusConsistent ↔ s.statusConsistent := by
  rw [State.statusConsistent, he, hc]

theorem exec_keeps_statusConsistent {i : Instr} {s t : State} (hs : s.statusConsistent) (h : exec i s = .next t) :
    t.statusConsistent := by
  rcases exec_cases h with ⟨-, rfl⟩ | ⟨-, hne, rfl⟩ | ⟨-, -, hw⟩
  · exact hs
  · exact statusConsistent_raiseError s hne
  · exact (statusConsistent_congr hw.err hw.ecode).mpr hs

/-- A transaction that passes Check is some command's meaning. -/
theorem execute_eq_exec_of_check {tr : Transaction} (h : check tr.cmd = .noError) :
    ∃ i, decode tr = .ok i ∧ ∀ s, execute tr s = exec i s := by
  obtain ⟨o, ho, -⟩ := check_noError h
  have hd := decode_of_check h ho
  exact ⟨_, hd, execute_of_decode hd⟩

theorem execute_keeps_statusConsistent {tr : Transaction} {s t : State} (hs : s.statusConsistent)
    (h : execute tr s = .next t) : t.statusConsistent := by
  by_cases hc : check tr.cmd = .noError
  · obtain ⟨i, -, hi⟩ := execute_eq_exec_of_check hc
    exact exec_keeps_statusConsistent hs (hi s ▸ h)
  · rw [execute_of_check_ne hc] at h
    cases h
    split
    · exact hs
    · exact statusConsistent_raiseError s hc

/-- Settles O15: ERR = 0 and ECODE is NONE. -/
theorem resetStatusIsConsistent : Obligations.ResetStatusIsConsistent := iff_of_true rfl rfl

/-- Settles O14, by what a step can do: wait, reset, or execute a transaction. -/
theorem stepKeepsStatusConsistent : Obligations.StepKeepsStatusConsistent := by
  intro s t hs h
  rcases step_cases h with ⟨-, rfl⟩ | ⟨_, _, -, rfl⟩ | ⟨_, -, rfl⟩ | ⟨_, rest, -, hexec⟩
  · exact hs
  · exact resetStatusIsConsistent
  · exact hs
  · exact execute_keeps_statusConsistent (s := { s with port := rest }) hs hexec

theorem codeNumber_le_four (e : ErrorCode) : (codeNumber e).toNat ≤ 4 := by
  cases e <;> decide

theorem statusWord_toNat (s : State) :
    s.statusWord.toNat = (codeNumber s.ecode).toNat * 2 ^ 4 + s.err.toNat := by
  simp only [State.statusWord, append_toNat_eq, BitVec.toNat_ofNat, BitVec.toNat_ofBool]
  omega

/-- Settles O16: the fields are digits of the word's number, ECODE at 2 ^ 4 and ERR at 1. -/
theorem statusWordFields : Obligations.StatusWordFields := by
  refine ⟨fun s => ?_, rfl, rfl, rfl, rfl, rfl⟩
  have hcode := codeNumber_le_four s.ecode
  have herr : s.err.toNat = if s.err then 1 else 0 := by cases s.err <;> rfl
  rw [statusWord_toNat, herr]
  refine ⟨?_, ?_, ?_, ?_, hcode⟩ <;> split <;> omega

/-- Settles O18, element by element from the definition of the reset state. -/
theorem resetValues : Obligations.ResetValues :=
  ⟨fun _ => rfl, fun _ _ => rfl, rfl, rfl, rfl, rfl, rfl, rfl⟩

end Sys2Proof.Machine
end

