-- ==== Sys2Proof/Proofs/Order.lean ====
section
/-! Transactions in the order the host presents them (20_memory.md rule R60, 70_reset_and_hazards.md rule R235). -/

namespace Sys2Proof.Machine

/-- Executing a transaction neither reads nor writes the host's pending inputs. -/
theorem execute_with_port (tr : Transaction) (q : List HostInput) (s : State) :
    ∃ u, execute tr s = .next u ∧ execute tr { s with port := q } = .next { u with port := q } := by
  unfold execute
  cases decode tr with
  | ok i => exact exec_with_port i q s
  | error code => exact command_with_port _ q (fun _ _ => rfl) s

theorem run_succ_of_step {s t : State} (h : step s = .next t) (n : Nat) : core.run (n + 1) s = core.run n t := by
  rw [run_succ, h]
  rfl

theorem issueAll_cons_of_execute {tr : Transaction} {s t : State} (h : execute tr s = .next t)
    (ts : List Transaction) : issueAll (tr :: ts) s = issueAll ts t := by
  rw [issueAll_cons, h, andThen_next]

/-- Settles O21, by induction on the transactions: the state the first one answers does not depend on what the port
still holds. -/
theorem presentedTransactionsRunInOrder : Obligations.PresentedTransactionsRunInOrder := by
  intro ts rest
  induction ts with
  | nil =>
    rintro s rfl
    rfl
  | cons tr ts ih =>
    intro s hs
    let later : List HostInput := ts.map (fun t => ⟨false, some t⟩) ++ rest
    obtain ⟨u, hexec, hlater⟩ := execute_with_port tr later s
    obtain ⟨u', hexec', hrest⟩ := execute_with_port tr rest s
    cases hexec.symm.trans hexec'
    have hstep : step s = .next { u with port := later } := (step_of_port_cons hs).trans hlater
    have hrun : core.run ts.length { u with port := later } = issueAll ts { u with port := rest } := ih _ rfl
    exact (run_succ_of_step hstep _).trans (hrun.trans (issueAll_cons_of_execute hrest ts).symm)

end Sys2Proof.Machine
end

