-- ==== Sys2Proof/Proofs/ExecEquations.lean ====
section
/-! The meaning of every command as the command step of 30_encoding.md rule R77 on its index form and its effect: one
equation per row of rule R73. -/

namespace Sys2Proof.Machine

theorem exec_nop (s : State) : exec .nop s = command noIndex (fun _ s => s) s := rfl

theorem exec_init (s : State) : exec .init s = command noIndex (fun _ s => s.loadTables) s := rfl

theorem exec_wipe (s : State) : exec .wipe s = command noIndex (fun _ s => s.clearData) s := rfl

theorem exec_ldblk (a b : Word) (s : State) :
    exec (.ldblk a b) s = command noIndex (fun _ s => s.setBlock a b) s := rfl

theorem exec_xblk (a b : Word) (s : State) :
    exec (.xblk a b) s = command noIndex (fun _ s => s.setBlock (s.bl ^^^ a) (s.br ^^^ b)) s := rfl

theorem exec_enc (s : State) : exec .enc s =
    command noIndex (fun _ s => s.setBlock (encryptBlock s s.bl s.br).1 (encryptBlock s s.bl s.br).2) s := rfl

theorem exec_feval (a : Word) (s : State) :
    exec (.feval a) s = command noIndex (fun _ s => s.setY (roundF s a)) s := rfl

theorem exec_xorp (i : BitVec 8) (a : Word) (s : State) :
    exec (.xorp i a) s = command (pIndex i) (fun n s => s.writeP n (s.readP n ^^^ a)) s := rfl

theorem exec_wrp (i : BitVec 8) (a : Word) (s : State) :
    exec (.wrp i a) s = command (pIndex i) (fun n s => s.writeP n a) s := rfl

theorem exec_rdp (i : BitVec 8) (s : State) :
    exec (.rdp i) s = command (pIndex i) (fun n s => s.setY (s.readP n)) s := rfl

theorem exec_wrs (k : BitVec 2) (i : BitVec 8) (a : Word) (s : State) :
    exec (.wrs k i a) s = command (sIndex k i) (fun kj s => s.writeS kj.1 kj.2 a) s := rfl

theorem exec_rds (k : BitVec 2) (i : BitVec 8) (s : State) :
    exec (.rds k i) s = command (sIndex k i) (fun kj s => s.setY (s.readS kj.1 kj.2)) s := rfl

theorem exec_stp (i : BitVec 8) (s : State) : exec (.stp i) s = command (pPair i) (fun n s => s.storePairP n) s := rfl

theorem exec_sts (k : BitVec 2) (i : BitVec 8) (s : State) :
    exec (.sts k i) s = command (sPair k i) (fun kn s => s.storePairS kn.1 kn.2) s := rfl

end Sys2Proof.Machine
end

