-- ==== Sys2Proof/Proofs/Frames.lean ====
section
/-! Frames of the block, result and table commands (20_memory.md rules R53 to R55): what each leaves as it was. -/

namespace Sys2Proof.Machine

theorem readP_of_p_eq {s t : State} (h : t.p = s.p) (n : Fin 18) : t.readP n = s.readP n := by
  rw [State.readP, h, State.readP]

theorem readS_of_sbox_eq {s t : State} (h : t.sbox = s.sbox) (k : Fin 4) (j : Fin 256) :
    t.readS k j = s.readS k j := by
  rw [State.readS, h, State.readS]

/-- Check passes the encoding of every command with legal operands. -/
theorem check_encode_of_wellFormed {i : Instr} (h : i.wellFormed = true) : check (encode i).cmd = .noError := by
  cases i <;> simp only [encode, Instr.wellFormed, Bool.and_eq_true, decide_eq_true_eq] at h ⊢
  case nop | init | wipe | ldblk | xblk | enc | feval => exact check_cmdWord_eq_checkIdx (.inl rfl) 0
  case xorp | wrp | rdp | stp =>
    rw [check_cmdWord_eq_checkIdx (.inl rfl)]
    simp [Op.checkIdx, Op.row, h]
  case wrs | rds | sts =>
    rw [check_cmdWord_eq_checkIdx (.inr rfl), checkIdx_of_maxIdx_255 rfl]
    simp [Op.row, h]

/-! ### What a command leaves alone, by its opcode: where `ops` lists opcodes none of which writes the element -/

section ByOpcode

variable {i : Instr} {s t : State} (h : exec i s = .next t)
include h

theorem exec_keeps_p {ops : List Op} (ho : i.op ∈ ops)
    (hops : ∀ o ∈ ops, o ∉ [Op.init, .wipe, .xorp, .wrp, .stp] := by decide) : t.p = s.p := by
  obtain ⟨hp, -⟩ := onlyNamedCommandsWriteEachElement i s t h
  exact not_not.mp (mt hp (hops _ ho))

theorem exec_keeps_sbox {ops : List Op} (ho : i.op ∈ ops)
    (hops : ∀ o ∈ ops, o ∉ [Op.init, .wipe, .wrs, .sts] := by decide) : t.sbox = s.sbox := by
  obtain ⟨-, hsbox, -⟩ := onlyNamedCommandsWriteEachElement i s t h
  exact not_not.mp (mt hsbox (hops _ ho))

theorem exec_keeps_block {ops : List Op} (ho : i.op ∈ ops)
    (hops : ∀ o ∈ ops, o ∉ [Op.ldblk, .xblk, .enc, .wipe] := by decide) : t.bl = s.bl ∧ t.br = s.br := by
  obtain ⟨-, -, hblock, -⟩ := onlyNamedCommandsWriteEachElement i s t h
  simpa only [not_or, not_not] using mt hblock (hops _ ho)

theorem exec_keeps_y {ops : List Op} (ho : i.op ∈ ops)
    (hops : ∀ o ∈ ops, o ∉ [Op.feval, .rdp, .rds, .wipe] := by decide) : t.y = s.y := by
  obtain ⟨-, -, -, hy, -⟩ := onlyNamedCommandsWriteEachElement i s t h
  exact not_not.mp (mt hy (hops _ ho))

/-- Only a CommandError writes STATUS, and legal operands take none. -/
theorem exec_keeps_status (hw : i.wellFormed = true) : t.err = s.err ∧ t.ecode = s.ecode := by
  obtain ⟨-, -, -, -, hstatus⟩ := onlyNamedCommandsWriteEachElement i s t h
  have hsame : ¬ (t.err ≠ s.err ∨ t.ecode ≠ s.ecode) := fun hne =>
    (hstatus hne).1 (check_encode_of_wellFormed hw)
  simpa only [not_or, not_not] using hsame

theorem exec_keeps_port : t.port = s.port := by
  obtain ⟨u, hu, hport⟩ := exec_with_port i s.port s
  cases h.symm.trans hu
  have heq : t = { t with port := s.port } := Host.Outcome.next.inj (h.symm.trans hport)
  rw [heq]

end ByOpcode

/-- Settles O40: the opcodes of the three write the block only, and they have no operand to fail on. -/
theorem blockCommandsFrame : Obligations.BlockCommandsFrame := by
  intro i s t hi h
  obtain ⟨ho, hw⟩ : i.op ∈ [Op.ldblk, .xblk, .enc] ∧ i.wellFormed = true := by
    rcases hi with rfl | ⟨a, b, rfl | rfl⟩ <;> simp [Instr.op, Instr.wellFormed]
  obtain ⟨herr, hecode⟩ := exec_keeps_status h hw
  exact ⟨readP_of_p_eq (exec_keeps_p h ho), readS_of_sbox_eq (exec_keeps_sbox h ho), exec_keeps_y h ho, herr, hecode,
    exec_keeps_port h⟩

/-- Settles O41: the opcodes of the three write Y only. -/
theorem resultCommandsFrame : Obligations.ResultCommandsFrame := by
  intro i s t hi h
  have ho : i.op ∈ [Op.feval, .rdp, .rds] := by
    rcases hi with ⟨a, rfl⟩ | ⟨n, rfl⟩ | ⟨k, n, rfl⟩ <;> simp [Instr.op]
  obtain ⟨hbl, hbr⟩ := exec_keeps_block h ho
  exact ⟨readP_of_p_eq (exec_keeps_p h ho), readS_of_sbox_eq (exec_keeps_sbox h ho), hbl, hbr, exec_keeps_port h,
    exec_keeps_status h⟩

/-! ### What a table command leaves alone, by its index -/

/-- A command keeps what neither a CommandError nor its effect on a resolved operand changes. -/
theorem command_keeps {α β : Type} {c : Except ErrorCode α} {f : α → State → State} {s t : State} (r : State → β)
    (h : command c f s = .next t) (herr : ∀ code, r (s.raiseError code) = r s)
    (hok : ∀ x, c = .ok x → r (f x s) = r s) : r t = r s := by
  rcases command_cases h with ⟨-, rfl⟩ | ⟨-, code, -, rfl⟩ | ⟨-, x, hx, rfl⟩
  · rfl
  · exact herr code
  · exact hok x hx

theorem val_of_pIndex_eq_ok {i : BitVec 8} {n : Fin 18} (h : pIndex i = .ok n) : n.val = i.toNat := by
  rcases Nat.lt_or_ge 17 i.toNat with hgt | hle
  · cases pIndex_of_gt hgt ▸ h
  · cases pIndex_of_le hle ▸ h
    rfl

theorem two_mul_val_of_pPair_eq_ok {i : BitVec 8} {n : Fin 9} (h : pPair i = .ok n) : 2 * n.val = i.toNat := by
  rcases Nat.lt_or_ge 16 i.toNat with hgt | hle
  · cases pPair_of_gt hgt ▸ h
  · rcases Nat.mod_two_eq_zero_or_one i.toNat with he | ho
    · cases pPair_of_even hle he ▸ h
      exact Nat.two_mul_div_two_of_even (Nat.even_iff.mpr he)
    · cases pPair_of_odd hle ho ▸ h

theorem val_of_sIndex_eq_ok {k : BitVec 2} {i : BitVec 8} {x : Fin 4 × Fin 256} (h : sIndex k i = .ok x) :
    x.1.val = k.toNat ∧ x.2.val = i.toNat := by
  cases h
  exact ⟨rfl, rfl⟩

theorem two_mul_val_of_sPair_eq_ok {k : BitVec 2} {i : BitVec 8} {x : Fin 4 × Fin 128} (h : sPair k i = .ok x) :
    x.1.val = k.toNat ∧ 2 * x.2.val = i.toNat := by
  rcases Nat.mod_two_eq_zero_or_one i.toNat with he | ho
  · cases sPair_of_even k he ▸ h
    exact ⟨rfl, Nat.two_mul_div_two_of_even (Nat.even_iff.mpr he)⟩
  · cases sPair_of_odd k ho ▸ h

/-- A command that writes a word of P at its IDX leaves the other words of P alone. -/
theorem readP_of_command_writeP {x : BitVec 8} {w : Fin 18 → State → Word} {s t : State}
    (h : command (pIndex x) (fun m s => s.writeP m (w m s)) s = .next t) {n : Fin 18} (hn : n.val ≠ x.toNat) :
    t.readP n = s.readP n :=
  command_keeps (·.readP n) h (fun _ => rfl) fun _ hm =>
    readP_writeP_other s _ fun e => hn (e ▸ val_of_pIndex_eq_ok hm)

/-- XORP and WRP leave every word of P but the one at IDX alone. -/
theorem readP_of_exec_xorp_or_wrp {i : Instr} {x : BitVec 8} {a : Word} {s t : State}
    (hi : i = .xorp x a ∨ i = .wrp x a) (h : exec i s = .next t) {n : Fin 18} (hn : n.val ≠ x.toNat) :
    t.readP n = s.readP n := by
  rcases hi with rfl | rfl
  · exact readP_of_command_writeP (exec_xorp x a s ▸ h) hn
  · exact readP_of_command_writeP (exec_wrp x a s ▸ h) hn

/-- WRS leaves every word of S but the one at (BOX, IDX) alone. -/
theorem readS_of_exec_wrs {b : BitVec 2} {x : BitVec 8} {a : Word} {s t : State}
    (h : exec (.wrs b x a) s = .next t) {k : Fin 4} {j : Fin 256} (hkj : k.val ≠ b.toNat ∨ j.val ≠ x.toNat) :
    t.readS k j = s.readS k j :=
  command_keeps (·.readS k j) (exec_wrs b x a s ▸ h) (fun _ => rfl) fun m hm => by
    obtain ⟨hbox, hidx⟩ := val_of_sIndex_eq_ok hm
    exact readS_writeS_other s a (by simpa only [Fin.ext_iff, ne_eq, hbox, hidx] using hkj)

/-- Settles O42: the named word by the command's index form, the rest by its opcode. -/
theorem singleWordWritesFrame : Obligations.SingleWordWritesFrame := by
  refine ⟨fun i x a s t hi h => ?_, fun b x a s t h => ?_⟩
  · obtain ⟨ho, hw⟩ : i.op ∈ [Op.xorp, .wrp] ∧ i.wellFormed = decide (x.toNat ≤ 17) := by
      rcases hi with rfl | rfl <;> simp [Instr.op, Instr.wellFormed]
    obtain ⟨hbl, hbr⟩ := exec_keeps_block h ho
    exact ⟨fun n hn => readP_of_exec_xorp_or_wrp hi h hn, readS_of_sbox_eq (exec_keeps_sbox h ho), hbl, hbr,
      exec_keeps_y h ho, exec_keeps_port h, fun hx => exec_keeps_status h (by simpa [hw] using hx)⟩
  · have ho : (Instr.wrs b x a).op ∈ [Op.wrs] := List.mem_singleton_self _
    obtain ⟨hbl, hbr⟩ := exec_keeps_block h ho
    obtain ⟨herr, hecode⟩ := exec_keeps_status h rfl
    exact ⟨readP_of_p_eq (exec_keeps_p h ho), fun k j hkj => readS_of_exec_wrs h hkj, hbl, hbr,
      exec_keeps_y h ho, herr, hecode, exec_keeps_port h⟩

/-- STP leaves every word of P but the two at IDX and IDX + 1 alone. -/
theorem readP_of_exec_stp {x : BitVec 8} {s t : State} (h : exec (.stp x) s = .next t) {n : Fin 18}
    (hn : n.val ≠ x.toNat ∧ n.val ≠ x.toNat + 1) : t.readP n = s.readP n :=
  command_keeps (·.readP n) (exec_stp x s ▸ h) (fun _ => rfl) fun m hm => by
    have hidx := two_mul_val_of_pPair_eq_ok hm
    refine readP_storePairP_other s ?_ ?_ <;> simp only [Fin.ext_iff, ne_eq, pPairEven, pPairOdd] <;> omega

/-- STP with an illegal IDX leaves P alone. -/
theorem p_of_exec_stp_illegal {x : BitVec 8} {s t : State} (h : exec (.stp x) s = .next t)
    (hx : x.toNat > 16 ∨ x.toNat % 2 = 1) : t.p = s.p :=
  command_keeps State.p (exec_stp x s ▸ h) (fun _ => rfl) fun m hm => by
    have hidx := two_mul_val_of_pPair_eq_ok hm
    omega

/-- STS leaves every word of S but the two at IDX and IDX + 1 of its box alone. -/
theorem readS_of_exec_sts {b : BitVec 2} {x : BitVec 8} {s t : State} (h : exec (.sts b x) s = .next t) {k : Fin 4}
    {j : Fin 256} (hkj : k.val ≠ b.toNat ∨ (j.val ≠ x.toNat ∧ j.val ≠ x.toNat + 1)) : t.readS k j = s.readS k j :=
  command_keeps (·.readS k j) (exec_sts b x s ▸ h) (fun _ => rfl) fun m hm => by
    obtain ⟨hbox, hidx⟩ := two_mul_val_of_sPair_eq_ok hm
    refine readS_storePairS_other s ?_
    simpa only [Fin.ext_iff, ne_eq, sPairEven, sPairOdd, hbox, hidx] using hkj

/-- STS with an odd IDX leaves S alone. -/
theorem sbox_of_exec_sts_illegal {b : BitVec 2} {x : BitVec 8} {s t : State} (h : exec (.sts b x) s = .next t)
    (hx : x.toNat % 2 = 1) : t.sbox = s.sbox :=
  command_keeps State.sbox (exec_sts b x s ▸ h) (fun _ => rfl) fun m hm => by
    obtain ⟨-, hidx⟩ := two_mul_val_of_sPair_eq_ok hm
    omega

/-- Settles O43: the pair by the command's index form, the rest by its opcode. -/
theorem pairStoresFrame : Obligations.PairStoresFrame := by
  refine ⟨fun x s t h => ?_, fun b x s t h => ?_⟩
  · have ho : (Instr.stp x).op ∈ [Op.stp] := List.mem_singleton_self _
    obtain ⟨hbl, hbr⟩ := exec_keeps_block h ho
    exact ⟨fun n hn => readP_of_exec_stp h hn, p_of_exec_stp_illegal h, readS_of_sbox_eq (exec_keeps_sbox h ho), hbl,
      hbr, exec_keeps_y h ho, exec_keeps_port h,
      fun hle he => exec_keeps_status h (by simp [Instr.wellFormed, hle, he])⟩
  · have ho : (Instr.sts b x).op ∈ [Op.sts] := List.mem_singleton_self _
    obtain ⟨hbl, hbr⟩ := exec_keeps_block h ho
    exact ⟨readP_of_p_eq (exec_keeps_p h ho), fun k j hkj => readS_of_exec_sts h hkj, sbox_of_exec_sts_illegal h, hbl,
      hbr, exec_keeps_y h ho, exec_keeps_port h, fun he => exec_keeps_status h (by simp [Instr.wellFormed, he])⟩

end Sys2Proof.Machine
end

