-- ==== Sys2Proof/Proofs/Repeat.lean ====
section
/-! Repeated commands (20_memory.md rule R57): where what a command writes does not depend on its destination, giving
it again changes nothing. -/

namespace Sys2Proof.Machine

/-- Writing to P the word that stands there changes nothing. -/
theorem writeP_eq_self {s : State} {n : Fin 18} {w : Word} (h : s.readP n = w) : s.writeP n w = s := by
  subst h
  simp [State.writeP, State.readP]

/-- Writing to S the word that stands there changes nothing. -/
theorem writeS_eq_self {s : State} {k : Fin 4} {j : Fin 256} {w : Word} (h : s.readS k j = w) :
    s.writeS k j w = s := by
  subst h
  simp [State.writeS, State.readS]

theorem writeP_writeP_same (n : Fin 18) (w : Word) (s : State) : (s.writeP n w).writeP n w = s.writeP n w :=
  writeP_eq_self (readP_writeP_same s n w)

theorem writeS_writeS_same (k : Fin 4) (j : Fin 256) (w : Word) (s : State) :
    (s.writeS k j w).writeS k j w = s.writeS k j w :=
  writeS_eq_self (readS_writeS_same s k j w)

theorem storePairP_storePairP (n : Fin 9) (s : State) : (s.storePairP n).storePairP n = s.storePairP n := by
  rw [State.storePairP, storePairP_bl, storePairP_br, writeP_eq_self (readP_storePairP_even s n),
    writeP_eq_self (readP_storePairP_odd s n)]

theorem storePairS_storePairS (k : Fin 4) (n : Fin 128) (s : State) :
    (s.storePairS k n).storePairS k n = s.storePairS k n := by
  rw [State.storePairS, storePairS_bl, storePairS_br, writeS_eq_self (readS_storePairS_even s k n),
    writeS_eq_self (readS_storePairS_odd s k n)]

/-- A command with an idempotent effect is idempotent: a CommandError blocks the second one. -/
theorem command_repeated {α : Type} {c : Except ErrorCode α} {f : α → State → State} {s t : State}
    (h : command c f s = .next t) (hf : ∀ x s, f x (f x s) = f x s) : command c f t = .next t := by
  rcases command_cases h with ⟨he, rfl⟩ | ⟨-, code, rfl, rfl⟩ | ⟨-, x, rfl, rfl⟩
  · exact h
  · exact command_blocked _ f rfl
  · cases he : (f x s).err with
    | true => exact command_blocked _ f he
    | false => rw [command_ok x f he, hf]

/-- Settles O45, command by command: the effect of each is idempotent. -/
theorem repeatedCommandLeavesTheSameState : Obligations.RepeatedCommandLeavesTheSameState := by
  intro i s t hi h
  cases i
  case enc | feval | xblk | xorp => simp [Instr.op] at hi
  all_goals
    simp only [exec_nop, exec_init, exec_wipe, exec_ldblk, exec_wrp, exec_rdp, exec_wrs, exec_rds, exec_stp,
      exec_sts] at h ⊢
  case nop | init | wipe | ldblk | rdp | rds => exact command_repeated h fun _ _ => rfl
  case wrp i a => exact command_repeated h fun n => writeP_writeP_same n a
  case stp => exact command_repeated h storePairP_storePairP
  case wrs k i a => exact command_repeated h fun kj => writeS_writeS_same kj.1 kj.2 a
  case sts => exact command_repeated h fun kn => storePairS_storePairS kn.1 kn.2

end Sys2Proof.Machine
end

