-- ==== Sys2Proof/Proofs/RoundTrip.lean ====
section
/-! The round trip of the encoding (30_encoding.md rules R71 to R76): what the decoder answers on an encoded command,
what it can answer at all, and which operand words it reads. -/

namespace Sys2Proof.Machine

/-! ### Decode of encode -/

theorem ofCode_opField_encode (i : Instr) : Op.ofCode (opField (encode i).cmd) = some i.op := by
  have h : opField (encode i).cmd = i.op.row.code := by cases i <;> exact opField_cmdWord ..
  rw [h, ofCode_code]

/-- The fields and operand words of an encoding give its command back, whatever its IDX. -/
theorem instr_fields_encode (i : Instr) :
    i.op.instr (boxField (encode i).cmd) (idxField (encode i).cmd) (encode i).a (encode i).b = i := by
  cases i <;> simp only [encode, Instr.op, Op.instr, boxField_cmdWord, idxField_cmdWord]

theorem decode_encode_of_check {i : Instr} (h : check (encode i).cmd = .noError) : decode (encode i) = .ok i := by
  rw [decode_of_check h (ofCode_opField_encode i), instr_fields_encode]

/-- Settles O1: Check passes the encoding of a legal command, and its fields give the command back. -/
theorem decodeOfEncodeIsSelf : Obligations.DecodeOfEncodeIsSelf :=
  fun _ h => decode_encode_of_check (check_encode_of_wellFormed h)

/-- Settles O6: each listed word is the encoding of the command it names, which is legal. -/
theorem specWordsDecodeToTheirCommands : Obligations.SpecWordsDecodeToTheirCommands :=
  ⟨decodeOfEncodeIsSelf .nop rfl, decodeOfEncodeIsSelf .init rfl, decodeOfEncodeIsSelf .wipe rfl,
    decodeOfEncodeIsSelf (.ldblk 5 6) rfl, decodeOfEncodeIsSelf (.xblk 0 0) rfl, decodeOfEncodeIsSelf .enc rfl,
    decodeOfEncodeIsSelf (.feval 0x01020304) rfl, decodeOfEncodeIsSelf (.xorp 17 0xFFFFFFFF) rfl,
    decodeOfEncodeIsSelf (.wrp 0 0x01000000) rfl, decodeOfEncodeIsSelf (.stp 16) rfl,
    decodeOfEncodeIsSelf (.wrs 3 0 0x10000000) rfl, decodeOfEncodeIsSelf (.sts 1 254) rfl,
    decodeOfEncodeIsSelf (.rdp 17) rfl, decodeOfEncodeIsSelf (.rds 2 128) rfl⟩

/-! ### Encode of decode -/

/-- What Check asks of IDX: 0 where the row does not use it, else in range and, for a pair store, even. -/
theorem checkIdx_noError {o : Op} {idx : BitVec 8} (h : o.checkIdx idx = .noError) :
    (o.row.maxIdx = none → idx = 0) ∧
    ∀ top, o.row.maxIdx = some top → idx.toNat ≤ top ∧ (o.row.pair = true → idx.toNat % 2 = 0) := by
  unfold Op.checkIdx at h
  split at h
  next hnone =>
    have hz : idx.toNat = 0 := by
      by_contra hne
      simp [hne] at h
    simp [hnone, BitVec.eq_of_toNat_eq (y := 0#8) hz]
  next top htop =>
    split at h
    · cases h
    · split at h
      · cases h
      next hle hodd =>
        simp only [htop, reduceCtorEq, false_implies, true_and, Option.some.injEq, forall_eq']
        refine ⟨Nat.not_lt.mp hle, fun hp => ?_⟩
        simpa [hp] using hodd

/-- The command of a row has legal operands where Check passes its IDX. -/
theorem wellFormed_instr {o : Op} {idx : BitVec 8} (h : o.checkIdx idx = .noError) (box : BitVec 2) (a b : Word) :
    (o.instr box idx a b).wellFormed = true := by
  obtain ⟨-, hused⟩ := checkIdx_noError h
  cases o <;> simp only [Op.instr, Instr.wellFormed]
  case xorp | wrp | rdp | stp => simpa [Op.row] using hused _ rfl
  case sts =>
    obtain ⟨-, heven⟩ := hused _ rfl
    exact decide_eq_true (heven rfl)

/-- Encoding the command of a row packs the fields it was made of, where Check passes them: a field the row does not
use is 0. -/
theorem encode_instr_cmd {o : Op} {box : BitVec 2} {idx : BitVec 8} (hbox : box = 0 ∨ o.row.usesBox = true)
    (hidx : o.checkIdx idx = .noError) (a b : Word) :
    (encode (o.instr box idx a b)).cmd = cmdWord o box idx := by
  obtain ⟨hunused, -⟩ := checkIdx_noError hidx
  cases o
  case wrs | sts | rds => rfl
  all_goals obtain rfl := hbox.resolve_right Bool.false_ne_true
  case xorp | wrp | stp | rdp => rfl
  all_goals
    obtain rfl := hunused rfl
    rfl

/-- Everything the decoder can answer with a command: the command of its row, on fields that pass Check. -/
theorem decode_eq_ok {t : Transaction} {i : Instr} (h : decode t = .ok i) :
    ∃ o, Op.ofCode (opField t.cmd) = some o ∧ rsvField t.cmd = 0 ∧ (boxField t.cmd = 0 ∨ o.row.usesBox = true) ∧
      o.checkIdx (idxField t.cmd) = .noError ∧ i = o.instr (boxField t.cmd) (idxField t.cmd) t.a t.b := by
  by_cases hc : check t.cmd = .noError
  · obtain ⟨o, ho, hrsv, hbox, hidx⟩ := check_noError hc
    rw [decode_of_check hc ho] at h
    exact ⟨o, ho, hrsv, hbox, hidx, (Except.ok.inj h).symm⟩
  · cases decode_of_check_ne hc ▸ h

/-- Settles O2: a passing Check bounds IDX as the row does and leaves 0 in RSV and in every field the row does not
use, so the encoding packs the same fields. -/
theorem decodedCommandHasOneWord : Obligations.DecodedCommandHasOneWord := by
  intro t i h
  obtain ⟨o, ho, hrsv, hbox, hidx, rfl⟩ := decode_eq_ok h
  have hcmd := cmdWord_of_fields (ofCode_eq_some ho) hrsv
  exact ⟨wellFormed_instr hidx .., (encode_instr_cmd hbox hidx ..).trans hcmd⟩

/-- Settles O4, by whether Check reports an error. -/
theorem decodeAnswersCommandOrOneCode : Obligations.DecodeAnswersCommandOrOneCode := by
  intro t
  by_cases hc : check t.cmd = .noError
  · obtain ⟨i, hi, -⟩ := execute_eq_exec_of_check hc
    exact .inl ⟨hc, i, hi⟩
  · exact .inr ⟨hc, fun o ho => ho ▸ decode_of_check_ne hc⟩

/-! ### The operand words a command reads -/

/-- Operand words may be exchanged for others where the row's command does not differ. -/
theorem execute_congr_operands {cmd a b a' b' : Word}
    (h : ∀ o : Op, o.row.code.toNat = cmd.toNat / 2 ^ 28 → ∀ box idx, o.instr box idx a b = o.instr box idx a' b')
    (s : State) : execute ⟨cmd, a, b⟩ s = execute ⟨cmd, a', b'⟩ s := by
  by_cases hc : check cmd = .noError
  · obtain ⟨o, ho, -⟩ := check_noError hc
    have hcode : o.row.code.toNat = cmd.toNat / 2 ^ 28 := by rw [← ofCode_eq_some ho, opField_toNat]
    rw [execute_of_decode (decode_of_check (t := ⟨cmd, a, b⟩) hc ho), h o hcode,
      execute_of_decode (decode_of_check (t := ⟨cmd, a', b'⟩) hc ho)]
  · rw [execute_of_check_ne (t := ⟨cmd, a, b⟩) hc, execute_of_check_ne (t := ⟨cmd, a', b'⟩) hc]

theorem instr_reads_neither {o : Op} (h : o.row.code.toNat ∈ [0x0, 0x1, 0x2, 0x5, 0x9, 0xB, 0xC, 0xD, 0xE, 0xF])
    (box : BitVec 2) (idx : BitVec 8) (a b a' b' : Word) : o.instr box idx a b = o.instr box idx a' b' := by
  cases o
  case ldblk | xblk | feval | xorp | wrp | wrs => simp [Op.row] at h
  all_goals rfl

theorem instr_reads_a_only {o : Op} (h : o.row.code.toNat ∈ [0x6, 0x7, 0x8, 0xA])
    (box : BitVec 2) (idx : BitVec 8) (a b b' : Word) : o.instr box idx a b = o.instr box idx a b' := by
  cases o
  case ldblk | xblk => simp [Op.row] at h
  all_goals rfl

/-- Settles O5, by what the rows of the listed OP values read; the reserved ones are no row's. -/
theorem unreadOperandsHaveNoEffect : Obligations.UnreadOperandsHaveNoEffect := fun s _ a b a' b' =>
  ⟨fun h => execute_congr_operands (fun _ ho box idx => instr_reads_neither (ho ▸ h) box idx a b a' b') s,
    fun h => execute_congr_operands (fun _ ho box idx => instr_reads_a_only (ho ▸ h) box idx a b b') s⟩

end Sys2Proof.Machine
end

