-- ==== Sys2Proof/Proofs/CommandStep.lean ====
section
/-! Execute and one step (30_encoding.md rule R77): every one completes, a blocked or failing command as the rule says,
and a passing one as the meaning of the command it decodes to. -/

namespace Sys2Proof.Machine

/-! ### The command step on a command and on a transaction -/

theorem exec_completes (i : Instr) (s : State) : ∃ t, exec i s = .next t := by
  obtain ⟨t, ht, -⟩ := exec_with_port i s.port s
  exact ⟨t, ht⟩

/-- Blocked while ERR = 1 (60_exceptions.md rule R203). -/
theorem exec_of_err {s : State} (h : s.err = true) (i : Instr) : exec i s = .next s := by
  obtain ⟨t, ht⟩ := exec_completes i s
  rcases exec_cases ht with ⟨-, rfl⟩ | ⟨he, -⟩ | ⟨he, -⟩
  · exact ht
  · cases h.symm.trans he
  · cases h.symm.trans he

/-- A command whose encoding fails Check takes Check's CommandError, or is blocked (notes/assumptions/5.md). -/
theorem exec_of_check_ne {i : Instr} (h : check (encode i).cmd ≠ .noError) (s : State) :
    exec i s = .next (if s.err then s else s.raiseError (check (encode i).cmd)) := by
  obtain ⟨t, ht⟩ := exec_completes i s
  rw [ht]
  rcases exec_cases ht with ⟨he, rfl⟩ | ⟨he, -, rfl⟩ | ⟨-, hc, -⟩
  · simp [he]
  · simp [he]
  · exact absurd hc h

theorem execute_of_err {s : State} (h : s.err = true) (t : Transaction) : execute t s = .next s := by
  by_cases hc : check t.cmd = .noError
  · obtain ⟨i, -, hi⟩ := execute_eq_exec_of_check hc
    rw [hi, exec_of_err h]
  · simp [execute_of_check_ne hc, h]

/-- Executing the encoding of a command is its meaning, by whether Check passes it. -/
theorem execute_encode (i : Instr) (s : State) : execute (encode i) s = exec i s := by
  by_cases hc : check (encode i).cmd = .noError
  · exact execute_of_decode (decode_encode_of_check hc) s
  · rw [execute_of_check_ne hc, exec_of_check_ne hc]

/-- Settles O9, branch by branch: a decoded command is legal, so it completes and keeps ERR. -/
theorem executeFollowsTheCommandStep : Obligations.ExecuteFollowsTheCommandStep := by
  refine fun s t => ⟨fun he => execute_of_err he t, fun he hc => ?_, fun he hc => ?_⟩
  · simp [execute_of_check_ne hc, he, State.raiseError]
  · obtain ⟨i, hi, hexec⟩ := execute_eq_exec_of_check hc
    obtain ⟨s', hs'⟩ := exec_completes i s
    obtain ⟨hlegal, -⟩ := decodedCommandHasOneWord t i hi
    obtain ⟨herr, -⟩ := exec_keeps_status hs' hlegal
    exact ⟨i, s', hi, hexec s, hs', herr.trans he⟩

/-! ### The step on a presented transaction -/

theorem step_of_port_transaction {s : State} {t : Transaction} {rest : List HostInput}
    (h : s.port = ⟨false, some t⟩ :: rest) : step s = execute t { s with port := rest } :=
  step_of_port_cons h

theorem step_present (s : State) (t : Transaction) : step (s.present t) = execute t s :=
  step_of_port_transaction (present_port s t)

theorem decode_of_decodeTableWord {nbits w : Nat} {i : Instr} (h : decodeTableWord nbits w = some i) :
    decode (transactionOfBits nbits w) = .ok i := by
  unfold decodeTableWord at h
  split at h
  next hd => rw [hd, Option.some.inj h]
  next => cases h

/-- Settles O7: the step executes the presented transaction, and that is the command it decodes to. -/
theorem stepRunsThePresentedCommand : Obligations.StepRunsThePresentedCommand :=
  ⟨fun _ _ _ _ hp hd => (step_of_port_transaction hp).trans (execute_of_decode hd _),
    fun s _ _ _ h => (step_present s _).trans (execute_of_decode (decode_of_decodeTableWord h) s)⟩

/-- Settles O8: the step executes the encoding, and that is the command's meaning. -/
theorem stepOnAnyEncodedCommandIsItsMeaning : Obligations.StepOnAnyEncodedCommandIsItsMeaning :=
  fun s i => (step_present s _).trans (execute_encode i s)

theorem execute_completes (t : Transaction) (s : State) : ∃ u, execute t s = .next u := by
  obtain ⟨u, hu, -⟩ := execute_with_port t s.port s
  exact ⟨u, hu⟩

theorem acceptInput_completes (h : HostInput) (s : State) : ∃ t, acceptInput h s = .next t := by
  obtain ⟨reset, command⟩ := h
  match reset, command with
  | true, _ => exact ⟨_, rfl⟩
  | false, none => exact ⟨_, rfl⟩
  | false, some t => exact execute_completes t s

/-- Settles O17, by whether the host has an input pending. -/
theorem everyStepCompletes : Obligations.EveryStepCompletes := by
  intro s
  match hp : s.port with
  | [] => exact ⟨s, step_of_port_nil hp⟩
  | h :: rest => exact step_of_port_cons hp ▸ acceptInput_completes h _

end Sys2Proof.Machine
end

