-- ==== Sys2Proof/Proofs/Assembler.lean ====
section
/-! The assembler (30_encoding.md rules R78, R79): STN's pair in the concatenated table, and source lines. -/

namespace Sys2Proof.Machine

/-! ### The concatenated table after a write -/

theorem tableWords_writeP (s : State) (i : Fin 18) (w : Word) :
    (s.writeP i w).tableWords = s.tableWords.set i w := by
  have hi : i.val < s.p.toList.length := by simp
  simp only [State.tableWords, writeP_p, writeP_sbox, Vector.toList_set, List.set_append_left _ _ hi]

/-- A write to word `j` of vector `k` is a write to word `m * k + j` of the vectors of length `m` laid end to end. -/
theorem flatMap_toList_set {m : Nat} (vs : List (Vector Word m)) {k j : Nat} (hk : k < vs.length) (hj : j < m)
    (w : Word) :
    (vs.set k (vs[k].set j w)).flatMap Vector.toList = (vs.flatMap Vector.toList).set (m * k + j) w := by
  induction vs generalizing k with
  | nil => cases hk
  | cons v vs ih =>
    cases k with
    | zero =>
      have hj' : j < v.toList.length := v.length_toList.symm ▸ hj
      simp [Vector.toList_set, List.set_append_left _ _ hj']
    | succ k =>
      have hlen : v.toList.length = m := v.length_toList
      have hle : v.toList.length ≤ m * (k + 1) + j := by rw [hlen, Nat.mul_succ]; omega
      have hsub : m * (k + 1) + j - v.toList.length = m * k + j := by rw [hlen, Nat.mul_succ]; omega
      simp only [List.set_cons_succ, List.getElem_cons_succ, List.flatMap_cons]
      rw [ih (by simpa using hk), List.set_append_right _ _ hle, hsub]

theorem tableWords_writeS (s : State) (k : Fin 4) (j : Fin 256) (w : Word) :
    (s.writeS k j w).tableWords = s.tableWords.set (18 + (256 * k + j)) w := by
  have hle : s.p.toList.length ≤ 18 + (256 * k.val + j.val) := by simp
  have hset := flatMap_toList_set s.sbox.toList (k := k) (by simp) j.isLt w
  simp only [State.tableWords, writeS_p, writeS_sbox, List.set_append_right _ _ hle]
  simpa [Vector.toList_set] using hset

theorem tableWords_storePairP (s : State) (n : Fin 9) :
    (s.storePairP n).tableWords = (s.tableWords.set (2 * n) s.bl).set (2 * n + 1) s.br := by
  rw [State.storePairP, tableWords_writeP, tableWords_writeP, pPairEven, pPairOdd]

theorem tableWords_storePairS (s : State) (k : Fin 4) (n : Fin 128) :
    (s.storePairS k n).tableWords =
      (s.tableWords.set (2 * (9 + (128 * k + n))) s.bl).set (2 * (9 + (128 * k + n)) + 1) s.br := by
  have heven : 18 + (256 * k.val + 2 * n.val) = 2 * (9 + (128 * k + n)) := by omega
  have hodd : 18 + (256 * k.val + (2 * n.val + 1)) = 2 * (9 + (128 * k + n)) + 1 := by omega
  simp only [State.storePairS, tableWords_writeS, sPairEven, sPairOdd, heven, hodd]

/-! ### STN as a pair store -/

theorem pPair_ofNat (n : Fin 9) : pPair (BitVec.ofNat 8 (2 * n)) = .ok n := by
  have hn : (BitVec.ofNat 8 (2 * n.val)).toNat = 2 * n := by rw [BitVec.toNat_ofNat]; omega
  rw [pPair_of_even (by omega) (by omega)]
  exact congrArg Except.ok (Fin.ext (by simp only [hn]; omega))

theorem sPair_ofNat (k : Fin 4) (n : Fin 128) :
    sPair (BitVec.ofNat 2 k) (BitVec.ofNat 8 (2 * n)) = .ok (k, n) := by
  have hk : (BitVec.ofNat 2 k.val).toNat = k := by rw [BitVec.toNat_ofNat]; omega
  have hn : (BitVec.ofNat 8 (2 * n.val)).toNat = 2 * n := by rw [BitVec.toNat_ofNat]; omega
  rw [sPair_of_even _ (by omega)]
  exact congrArg Except.ok (Prod.ext (Fin.ext hk) (Fin.ext (by simp only [hn]; omega)))

/-- The first nine pairs are those of P. -/
theorem exec_stn_p {s : State} (h : s.err = false) (n : Fin 9) : exec (stn n) s = .next (s.storePairP n) := by
  have hn : n.val ≤ 8 := by omega
  rw [stn, if_pos hn, exec_stp, pPair_ofNat, command_ok _ _ h]

/-- After them come the 128 pairs of each S-box. -/
theorem exec_stn_s {s : State} (h : s.err = false) (k : Fin 4) (n : Fin 128) :
    exec (stn (9 + (128 * k + n))) s = .next (s.storePairS k n) := by
  have hn : ¬ 9 + (128 * k.val + n.val) ≤ 8 := by omega
  have hbox : (9 + (128 * k.val + n.val) - 9) / 128 = k := by omega
  have hpair : (9 + (128 * k.val + n.val) - 9) % 128 = n := by omega
  rw [stn, if_neg hn, hbox, hpair, exec_sts, sPair_ofNat, command_ok _ _ h]

/-- A pair number is one of P's or one of an S-box's. -/
theorem pair_cases {n : Nat} (h : n ≤ 520) :
    (∃ m : Fin 9, n = m) ∨ ∃ (k : Fin 4) (m : Fin 128), n = 9 + (128 * k + m) := by
  rcases Nat.lt_or_ge n 9 with hlt | hge
  · exact .inl ⟨⟨n, hlt⟩, rfl⟩
  · exact .inr ⟨⟨(n - 9) / 128, by omega⟩, ⟨(n - 9) % 128, by omega⟩, by simp only; omega⟩

/-- Settles O47, by whether the pair is one of P's or one of an S-box's. -/
theorem stnStoresTheNthPair : Obligations.StnStoresTheNthPair := by
  refine ⟨fun s h => ?_, fun n s hn h => ?_, fun n => rfl⟩
  · exact (exec_ldblk 0 0 s).trans (command_ok _ _ h)
  · obtain ⟨m, rfl⟩ | ⟨k, m, rfl⟩ := pair_cases hn
    · exact ⟨_, exec_stn_p h m, tableWords_storePairP s m, rfl, rfl, rfl, rfl, rfl, rfl⟩
    · exact ⟨_, exec_stn_s h k m, tableWords_storePairS s k m, rfl, rfl, rfl, rfl, rfl, rfl⟩

/-- Settles O48: the assembler is run on each line. -/
theorem sourceLinesAssembleToTheirListings : Obligations.SourceLinesAssembleToTheirListings := by
  unfold Obligations.SourceLinesAssembleToTheirListings
  decide

end Sys2Proof.Machine
end

