-- ==== Sys2Proof/Proofs/NoIndexCommands.lean ====
section
/-! The commands with no index operand (30_encoding.md rule R73: those whose row has no highest IDX): their one CMD
word, and what a transaction with their OP does. -/

namespace Sys2Proof

/-- A row with no index operand does not use BOX either. -/
theorem usesBox_of_maxIdx_none {o : Op} (ho : o.row.maxIdx = none) : o.row.usesBox = false := by
  cases o
  case wrs | sts | rds => cases ho
  all_goals rfl

theorem opField_eq_code {cmd : Word} {o : Op} (hop : cmd.toNat / 2 ^ 28 = o.row.code.toNat) :
    opField cmd = o.row.code :=
  BitVec.eq_of_toNat_eq ((opField_toNat cmd).trans hop)

/-- With CMD[27:0] = 0, CMD is the word of its OP with no operand. -/
theorem eq_cmdWord_zero {cmd : Word} {o : Op} (hop : cmd.toNat / 2 ^ 28 = o.row.code.toNat)
    (hlow : cmd.toNat % 2 ^ 28 = 0) : cmd = cmdWord o 0 0 := by
  apply BitVec.eq_of_toNat_eq
  rw [cmdWord_toNat, ← hop]
  simp only [BitVec.ofNat_eq_ofNat, BitVec.toNat_zero]
  omega

/-- RSV, BOX and IDX fill CMD[27:0]. -/
theorem low_eq_zero_of_fields {cmd : Word} (hrsv : rsvField cmd = 0) (hbox : boxField cmd = 0)
    (hidx : idxField cmd = 0) : cmd.toNat % 2 ^ 28 = 0 := by
  have hr := rsvField_toNat cmd
  have hb := boxField_toNat cmd
  have hi := idxField_toNat cmd
  rw [hrsv] at hr
  rw [hbox] at hb
  rw [hidx] at hi
  simp only [BitVec.ofNat_eq_ofNat, BitVec.toNat_zero] at hr hb hi
  omega

/-- Where the row has no index operand, every field below OP must be 0 (rule R74). -/
theorem check_of_maxIdx_none {cmd : Word} {o : Op} (ho : o.row.maxIdx = none)
    (hop : cmd.toNat / 2 ^ 28 = o.row.code.toNat) :
    check cmd = if cmd.toNat % 2 ^ 28 = 0 then .noError else .reservedField := by
  by_cases hlow : cmd.toNat % 2 ^ 28 = 0
  · rw [if_pos hlow, eq_cmdWord_zero hop hlow, check_cmdWord]
    simp [Op.checkIdx, ho]
  · rw [if_neg hlow, check, opField_eq_code hop, ofCode_code]
    dsimp only
    split
    · rfl
    next hrsv =>
      split
      · rfl
      next hbox =>
        have hbox0 : boxField cmd = 0 := not_not.mp fun hne => hbox ⟨hne, usesBox_of_maxIdx_none ho⟩
        have hidx : (idxField cmd).toNat ≠ 0 := fun hz =>
          hlow (low_eq_zero_of_fields (not_not.mp hrsv) hbox0 (BitVec.eq_of_toNat_eq hz))
        simp [Op.checkIdx, ho, hidx]

namespace Machine

variable {cmd a b : Word} {o : Op} {s : State}

/-- A transaction with the OP of a command with no index operand: the command where CMD[27:0] = 0, and else a
RESERVED_FIELD error. -/
theorem execute_of_maxIdx_none (ho : o.row.maxIdx = none) (hop : cmd.toNat / 2 ^ 28 = o.row.code.toNat)
    (he : s.err = false) :
    execute ⟨cmd, a, b⟩ s =
      if cmd.toNat % 2 ^ 28 = 0 then exec (o.instr 0 0 a b) s
      else .next { s with err := true, ecode := .reservedField } := by
  have hcheck := check_of_maxIdx_none ho hop
  split
  next hlow =>
    rw [if_pos hlow] at hcheck
    have hd := decode_of_check (t := ⟨cmd, a, b⟩) hcheck (opField_eq_code hop ▸ ofCode_code o)
    rw [execute_of_decode hd, eq_cmdWord_zero hop hlow, boxField_cmdWord, idxField_cmdWord]
  next hlow =>
    rw [if_neg hlow] at hcheck
    rw [execute_of_check_ne (by simp [hcheck])]
    simp [he, hcheck, State.raiseError]

/-- The same, where the command's next state is known. -/
theorem execute_next_of_maxIdx_none {t : State} (ho : o.row.maxIdx = none)
    (hop : cmd.toNat / 2 ^ 28 = o.row.code.toNat) (he : s.err = false) (ht : exec (o.instr 0 0 a b) s = .next t) :
    execute ⟨cmd, a, b⟩ s =
      .next (if cmd.toNat % 2 ^ 28 = 0 then t else { s with err := true, ecode := .reservedField }) := by
  rw [execute_of_maxIdx_none ho hop he, ht, apply_ite Host.Outcome.next]

end Machine

end Sys2Proof
end

