-- ==== Sys2Proof/Proofs/Control.lean ====
section
/-! The control commands NOP, INIT and WIPE (40_control.md): their effects, what they leave as it was, and encryption
on wiped tables. -/

namespace Sys2Proof.Machine

/-! ### Effects and frames -/

/-- NOP, blocked or not (rule R100). -/
theorem exec_nop_eq_next (s : State) : exec .nop s = .next s := by
  cases he : s.err with
  | true => exact exec_of_err he .nop
  | false => exact (exec_nop s).trans (command_ok _ _ he)

theorem exec_init_of_err_false {s : State} (he : s.err = false) : exec .init s = .next s.loadTables :=
  (exec_init s).trans (command_ok _ _ he)

theorem exec_wipe_of_err_false {s : State} (he : s.err = false) : exec .wipe s = .next s.clearData :=
  (exec_wipe s).trans (command_ok _ _ he)

/-- Settles O22: NOP leaves the state alone, and its row has no index operand. -/
theorem nopDoesNothing : Obligations.NopDoesNothing :=
  ⟨fun s _ => exec_nop_eq_next s,
    fun s _ _ _ he hop => execute_next_of_maxIdx_none (o := .nop) rfl hop he (exec_nop_eq_next s)⟩

/-- Settles O23: INIT loads the tables, which does not depend on the words of P and S before it. -/
theorem initLoadsTheConstantTables : Obligations.InitLoadsTheConstantTables :=
  ⟨fun _ he => ⟨exec_init_of_err_false he, exec_init_of_err_false (s := State.loadTables _) he⟩,
    fun _ _ _ _ he hop => execute_next_of_maxIdx_none (o := .init) rfl hop he (exec_init_of_err_false he)⟩

/-- Settles O39, from what the opcodes of INIT and WIPE may write and that they have no operand to fail on. -/
theorem controlCommandsFrame : Obligations.ControlCommandsFrame := by
  refine ⟨fun s t h => ?_, fun s t h => ?_, fun s t h => ?_⟩
  · exact Host.Outcome.next.inj (h.symm.trans (exec_nop_eq_next s))
  · have ho : Instr.init.op ∈ [Op.init] := List.mem_singleton.mpr rfl
    obtain ⟨hbl, hbr⟩ := exec_keeps_block h ho
    obtain ⟨herr, hecode⟩ := exec_keeps_status h rfl
    exact ⟨hbl, hbr, exec_keeps_y h ho, herr, hecode, exec_keeps_port h⟩
  · obtain ⟨herr, hecode⟩ := exec_keeps_status h rfl
    exact ⟨herr, hecode, exec_keeps_port h⟩

/-! ### Encryption on wiped tables (rule R102, its corner case) -/

theorem readP_clearData (s : State) (i : Fin 18) : s.clearData.readP i = 0 := by
  simp [State.readP]

theorem readS_clearData (s : State) (k : Fin 4) (j : Fin 256) : s.clearData.readS k j = 0 := by
  simp [State.readS]

theorem roundF_clearData (s : State) (x : Word) : roundF s.clearData x = 0 := by
  simp [roundF, readS_clearData]

/-- With P and F all 0, a round only exchanges the halves. -/
theorem feistelRound_clearData (s : State) (lr : Word × Word) (i : Fin 16) :
    feistelRound s.clearData lr i = lr.swap := by
  simp [feistelRound, readP_clearData, roundF_clearData, Prod.swap]

/-- Sixteen exchanges, an even number, undo each other. -/
theorem feistelRounds_clearData (s : State) (lr : Word × Word) : feistelRounds s.clearData lr = lr := by
  have hinv : Function.Involutive (Prod.swap : Word × Word → Word × Word) := Prod.swap_swap
  have hround : feistelRound s.clearData = fun lr _ => lr.swap :=
    funext₂ (feistelRound_clearData s)
  rw [feistelRounds, hround, List.foldl_const, List.length_finRange, hinv.iterate_even (by decide), id]

theorem encryptBlock_clearData (s : State) (l r : Word) : encryptBlock s.clearData l r = (r, l) := by
  simp [encryptBlock, feistelRounds_clearData, readP_clearData]

/-- ENC on wiped tables, whatever block was loaded after WIPE. -/
theorem exec_enc_setBlock_clearData {s : State} (he : s.err = false) (l r : Word) :
    exec .enc (s.clearData.setBlock l r) = .next (s.clearData.setBlock r l) := by
  have henc : encryptBlock (s.clearData.setBlock l r) l r = (r, l) :=
    (encryptBlock_congr rfl rfl l r).trans (encryptBlock_clearData s l r)
  rw [exec_enc, noIndex, command_ok _ _ (by simpa using he)]
  simp only [setBlock_bl, setBlock_br, henc]
  rfl

/-- Settles O24: WIPE's effect, the encoding of its row, and encryption on the tables it leaves. -/
theorem wipeClearsAllData : Obligations.WipeClearsAllData := by
  refine ⟨fun s he => exec_wipe_of_err_false he, fun s cmd a b he hop => ?_, fun s t he h => ?_⟩
  · exact execute_of_maxIdx_none (o := .wipe) rfl hop he
  · obtain rfl : s.clearData = t := Host.Outcome.next.inj ((exec_wipe_of_err_false he).symm.trans h)
    exact ⟨roundF_clearData s, exec_enc_setBlock_clearData he⟩

end Sys2Proof.Machine
end

