-- ==== Sys2Proof/Proofs/Cipher.lean ====
section
/-! The cipher datapath (41_cipher.md): the round function on a word's bytes, encrypt-one-block along a trace of its
rounds and as an injective map, and the commands ENC and FEVAL. -/

namespace Sys2Proof.Machine

/-! ### The round function -/

theorem fByte_val (x : Word) (n : Fin 4) : (fByte x n).val = x.toNat / 2 ^ (8 * (3 - n.val)) % 2 ^ 8 := by
  simp only [fByte, BitVec.extractLsb'_toNat, Nat.shiftRight_eq_div_pow]

/-- The bytes F looks up are the base 256 digits of the word's number, the most significant first. -/
theorem fByte_of_toNat_eq {x : Word} {b0 b1 b2 b3 : Fin 256}
    (hx : x.toNat = b0.val * 2 ^ 24 + b1.val * 2 ^ 16 + b2.val * 2 ^ 8 + b3.val) :
    fByte x 0 = b0 ∧ fByte x 1 = b1 ∧ fByte x 2 = b2 ∧ fByte x 3 = b3 := by
  simp only [Fin.ext_iff, fByte_val, hx, Fin.coe_ofNat_eq_mod, Nat.reduceMod, Nat.reduceSub, Nat.reduceMul]
  omega

/-- Settles O36: the word's bytes select the lookups, and F reads no word of P. -/
theorem roundFunctionCombinesFourLookups : Obligations.RoundFunctionCombinesFourLookups := by
  refine ⟨fun s x b0 b1 b2 b3 hx => ?_, fun _ _ x => roundF_congr rfl x, by decide⟩
  obtain ⟨h0, h1, h2, h3⟩ := fByte_of_toNat_eq hx
  rw [roundF, h0, h1, h2, h3]
  rfl

/-! ### Encrypt-one-block along a trace of its rounds -/

/-- A fold over 0 .. n - 1 ends where a sequence ends that each of its steps follows. -/
theorem foldl_finRange_of_trace {α : Type} {n : Nat} {f : α → Fin n → α} {x : Nat → α}
    (h : ∀ i : Fin n, f (x i) i = x (i + 1)) : (List.finRange n).foldl f (x 0) = x n := by
  induction n with
  | zero => rfl
  | succ n ih =>
    rw [List.finRange_succ_last, List.foldl_append, List.foldl_map, ih fun i => h i.castSucc]
    exact h (Fin.last n)

/-- Settles O37: the rounds follow the trace of both halves. -/
theorem encryptFollowsSixteenRounds : Obligations.EncryptFollowsSixteenRounds := by
  intro s l r h
  have hround (i : Fin 16) : feistelRound s (l i, r i) i = (l (i + 1), r (i + 1)) := by
    obtain ⟨hl, hr⟩ := h i
    rw [hl, hr]
    rfl
  have hrounds : feistelRounds s (l 0, r 0) = (l 16, r 16) :=
    foldl_finRange_of_trace (x := fun i => (l i, r i)) hround
  rw [encryptBlock, hrounds]
  rfl

/-! ### Encrypt-one-block is injective -/

/-- A round hands its left half on, xored with a word of P, so F's value on it can be taken off the other half. -/
theorem feistelRound_injective (s : State) (i : Fin 16) : Function.Injective fun lr => feistelRound s lr i := by
  rintro ⟨l, r⟩ ⟨l', r'⟩ h
  obtain ⟨hr, hl⟩ := Prod.mk.inj h
  obtain rfl : l = l' := (BitVec.xor_left_inj _).mp hl
  obtain rfl : r = r' := (BitVec.xor_left_inj _).mp hr
  rfl

/-- A fold of injective steps is injective in what it starts from. -/
theorem foldl_injective {α β : Type} {f : α → β → α} (hf : ∀ b, Function.Injective fun a => f a b) (bs : List β) :
    Function.Injective fun a => bs.foldl f a := by
  induction bs with
  | nil => exact Function.injective_id
  | cons b bs ih => exact ih.comp (hf b)

theorem feistelRounds_injective (s : State) : Function.Injective (feistelRounds s) :=
  foldl_injective (feistelRound_injective s) (List.finRange 16)

/-- Settles O38: the rounds are injective, and so is the xor with P[17] and P[16] after them. -/
theorem encryptIsInjective : Obligations.EncryptIsInjective := by
  intro s l r l' r' h
  obtain ⟨hright, hleft⟩ := Prod.mk.inj h
  have hrounds : feistelRounds s (l, r) = feistelRounds s (l', r') :=
    Prod.ext ((BitVec.xor_left_inj _).mp hleft) ((BitVec.xor_left_inj _).mp hright)
  exact Prod.mk.inj (feistelRounds_injective s hrounds)

/-! ### ENC and FEVAL -/

theorem exec_enc_of_err_false {s : State} (he : s.err = false) :
    exec .enc s = .next (s.setBlock (encryptBlock s s.bl s.br).1 (encryptBlock s s.bl s.br).2) :=
  (exec_enc s).trans (command_ok _ _ he)

theorem exec_feval_of_err_false {s : State} (he : s.err = false) (a : Word) :
    exec (.feval a) s = .next (s.setY (roundF s a)) :=
  (exec_feval a s).trans (command_ok _ _ he)

/-- Settles O27: ENC's effect, the encoding of its row, and the two values of rule R112 computed. -/
theorem encEncryptsTheBlock : Obligations.EncEncryptsTheBlock :=
  ⟨fun _ he => exec_enc_of_err_false he,
    fun _ _ _ _ he hop => execute_of_maxIdx_none (o := .enc) rfl hop he,
    by decide, by decide⟩

/-- Settles O28: FEVAL's effect, the encoding of its row, and the two values of rule R113 computed. -/
theorem fevalEvaluatesTheRoundFunction : Obligations.FevalEvaluatesTheRoundFunction :=
  ⟨fun _ a he => exec_feval_of_err_false he a,
    fun _ _ a _ he hop => execute_next_of_maxIdx_none (o := .feval) rfl hop he (exec_feval_of_err_false he a),
    by decide, by decide⟩

end Sys2Proof.Machine
end

