-- ==== Sys2Proof/Proofs/Block.lean ====
section
/-! The block register commands LDBLK and XBLK (42_block.md): their effects, and the corner cases of the xor. -/

namespace Sys2Proof.Machine

theorem exec_ldblk_of_err_false {s : State} (he : s.err = false) (a b : Word) :
    exec (.ldblk a b) s = .next (s.setBlock a b) :=
  (exec_ldblk a b s).trans (command_ok _ _ he)

theorem exec_xblk_of_err_false {s : State} (he : s.err = false) (a b : Word) :
    exec (.xblk a b) s = .next (s.setBlock (s.bl ^^^ a) (s.br ^^^ b)) :=
  (exec_xblk a b s).trans (command_ok _ _ he)

/-- Settles O25: LDBLK's effect, and its row has no index operand. -/
theorem ldblkLoadsTheBlock : Obligations.LdblkLoadsTheBlock :=
  ⟨fun _ a b he => exec_ldblk_of_err_false he a b,
    fun _ _ a b he hop => execute_next_of_maxIdx_none (o := .ldblk) rfl hop he (exec_ldblk_of_err_false he a b)⟩

/-! ### The corner cases of rule R121 -/

theorem exec_xblk_zero {s : State} (he : s.err = false) : exec (.xblk 0 0) s = .next s := by
  have hbl : s.bl ^^^ 0 = s.bl := BitVec.xor_zero
  have hbr : s.br ^^^ 0 = s.br := BitVec.xor_zero
  rw [exec_xblk_of_err_false he, hbl, hbr]
  rfl

theorem exec_xblk_self {s : State} (he : s.err = false) : exec (.xblk s.bl s.br) s = .next (s.setBlock 0 0) := by
  rw [exec_xblk_of_err_false he, BitVec.xor_self, BitVec.xor_self]
  rfl

theorem xor_xor_same (x y : Word) : x ^^^ y ^^^ y = x := by
  rw [BitVec.xor_assoc, BitVec.xor_self, BitVec.xor_zero]

/-- A second XBLK with the same operands takes the first one back. -/
theorem exec_xblk_of_exec_xblk {s t : State} {a b : Word} (he : s.err = false) (h : exec (.xblk a b) s = .next t) :
    exec (.xblk a b) t = .next s := by
  have ht : t = s.setBlock (s.bl ^^^ a) (s.br ^^^ b) :=
    Host.Outcome.next.inj (h.symm.trans (exec_xblk_of_err_false he a b))
  have het : t.err = false := by rw [ht, setBlock_err, he]
  rw [exec_xblk_of_err_false het, ht, setBlock_bl, setBlock_br, xor_xor_same, xor_xor_same]
  rfl

/-- Settles O26: XBLK's effect, the encoding of its row, and what the xor gives on 0, on the block itself and twice. -/
theorem xblkXorsTheBlock : Obligations.XblkXorsTheBlock :=
  ⟨fun _ a b he => exec_xblk_of_err_false he a b,
    fun _ _ a b he hop => execute_next_of_maxIdx_none (o := .xblk) rfl hop he (exec_xblk_of_err_false he a b),
    fun _ he => ⟨exec_xblk_zero he, exec_xblk_self he⟩,
    fun _ _ _ _ he h => exec_xblk_of_exec_xblk he h⟩

end Sys2Proof.Machine
end

