-- ==== Sys2Proof/Proofs/IndexedCommands.lean ====
section
/-! The commands with an index operand (30_encoding.md rules R71, R73, R74): what a transaction with their OP does, by
the number below OP. Where the row does not use BOX, CMD[27:8] must be 0; where it does, only RSV = CMD[27:10]. -/

namespace Sys2Proof

variable {cmd : Word} {o : Op}

theorem eq_cmdWord {box : BitVec 2} {idx : BitVec 8} (hop : cmd.toNat / 2 ^ 28 = o.row.code.toNat)
    (hlow : cmd.toNat % 2 ^ 28 = 256 * box.toNat + idx.toNat) : cmd = cmdWord o box idx := by
  apply BitVec.eq_of_toNat_eq
  rw [cmdWord_toNat, ← hop]
  omega

/-- A field that must be 0 and is not: RSV, or a BOX the row does not use (60_exceptions.md rule R201). -/
theorem check_of_reserved_ne (hop : cmd.toNat / 2 ^ 28 = o.row.code.toNat)
    (h : rsvField cmd ≠ 0 ∨ (boxField cmd ≠ 0 ∧ o.row.usesBox = false)) : check cmd = .reservedField := by
  rw [check, opField_eq_code hop, ofCode_code]
  by_cases hrsv : rsvField cmd = 0
  · exact (if_neg (not_not.mpr hrsv)).trans (if_pos (h.resolve_left (not_not.mpr hrsv)))
  · exact if_pos hrsv

theorem rsvField_ne_zero (h : cmd.toNat / 2 ^ 10 % 2 ^ 18 ≠ 0) : rsvField cmd ≠ 0 := fun hz =>
  h (by rw [← rsvField_toNat, hz]; rfl)

/-- RSV and BOX fill CMD[27:8]. -/
theorem rsvField_ne_zero_or_boxField_ne_zero (h : cmd.toNat / 2 ^ 8 % 2 ^ 20 ≠ 0) :
    rsvField cmd ≠ 0 ∨ boxField cmd ≠ 0 := by
  by_contra hnot
  obtain ⟨hrsv, hbox⟩ := not_or.mp hnot
  have hr := rsvField_toNat cmd
  have hb := boxField_toNat cmd
  rw [not_not.mp hrsv] at hr
  rw [not_not.mp hbox] at hb
  simp only [BitVec.ofNat_eq_ofNat, BitVec.toNat_zero] at hr hb
  omega

/-- Encoding the command of a row with an index operand packs the fields it was made of, legal or not. -/
theorem encode_instr_cmd_of_maxIdx_ne_none {box : BitVec 2} (ho : o.row.maxIdx ≠ none)
    (hbox : box = 0 ∨ o.row.usesBox = true) (idx : BitVec 8) (a b : Word) :
    (encode (o.instr box idx a b)).cmd = cmdWord o box idx := by
  cases o
  case nop | init | wipe | ldblk | xblk | enc | feval => exact absurd rfl ho
  case wrs | sts | rds => rfl
  all_goals
    obtain rfl := hbox.resolve_right Bool.false_ne_true
    rfl

namespace Machine

variable {a b : Word} {s : State}

theorem execute_of_check_reservedField (he : s.err = false) (hc : check cmd = .reservedField) :
    execute ⟨cmd, a, b⟩ s = .next { s with err := true, ecode := .reservedField } := by
  rw [execute_of_check_ne (by simp [hc])]
  simp [he, hc, State.raiseError]

/-- A transaction with the CMD word of a row with an index operand is the row's command, whatever its IDX: an illegal
one takes the same CommandError either way. -/
theorem execute_cmdWord {box : BitVec 2} (ho : o.row.maxIdx ≠ none) (hbox : box = 0 ∨ o.row.usesBox = true)
    (idx : BitVec 8) : execute ⟨cmdWord o box idx, a, b⟩ s = exec (o.instr box idx a b) s := by
  by_cases hc : check (cmdWord o box idx) = .noError
  · have hcode : Op.ofCode (opField (cmdWord o box idx)) = some o := by rw [opField_cmdWord, ofCode_code]
    have hd := decode_of_check (t := ⟨cmdWord o box idx, a, b⟩) hc hcode
    rw [execute_of_decode hd, boxField_cmdWord, idxField_cmdWord]
  · have henc := encode_instr_cmd_of_maxIdx_ne_none ho hbox idx a b
    rw [execute_of_check_ne (t := ⟨cmdWord o box idx, a, b⟩) hc, exec_of_check_ne (henc ▸ hc), henc]

/-- A transaction with the OP of a command that uses IDX but not BOX (rules R130, R131, R132, R135). -/
theorem execute_of_usesBox_false (ho : o.row.maxIdx ≠ none) (hu : o.row.usesBox = false) (he : s.err = false)
    (hop : cmd.toNat / 2 ^ 28 = o.row.code.toNat) :
    (cmd.toNat / 2 ^ 8 % 2 ^ 20 ≠ 0 →
      execute ⟨cmd, a, b⟩ s = .next { s with err := true, ecode := .reservedField }) ∧
    (∀ idx : BitVec 8, cmd.toNat % 2 ^ 28 = idx.toNat → execute ⟨cmd, a, b⟩ s = exec (o.instr 0 idx a b) s) := by
  refine ⟨fun h => execute_of_check_reservedField he ?_, fun idx hlow => ?_⟩
  · exact check_of_reserved_ne hop ((rsvField_ne_zero_or_boxField_ne_zero h).imp_right fun hbox => ⟨hbox, hu⟩)
  · obtain rfl : cmd = cmdWord o 0 idx := eq_cmdWord hop (by simpa using hlow)
    exact execute_cmdWord ho (.inl rfl) idx

/-- A transaction with the OP of a command that uses BOX and IDX (rules R133, R134, R136). -/
theorem execute_of_usesBox (hu : o.row.usesBox = true) (he : s.err = false)
    (hop : cmd.toNat / 2 ^ 28 = o.row.code.toNat) :
    (cmd.toNat / 2 ^ 10 % 2 ^ 18 ≠ 0 →
      execute ⟨cmd, a, b⟩ s = .next { s with err := true, ecode := .reservedField }) ∧
    (∀ (box : BitVec 2) (idx : BitVec 8), cmd.toNat % 2 ^ 28 = 256 * box.toNat + idx.toNat →
      execute ⟨cmd, a, b⟩ s = exec (o.instr box idx a b) s) := by
  refine ⟨fun h => execute_of_check_reservedField he (check_of_reserved_ne hop (.inl (rsvField_ne_zero h))),
    fun box idx hlow => ?_⟩
  have ho : o.row.maxIdx ≠ none := fun hnone => Bool.false_ne_true ((usesBox_of_maxIdx_none hnone).symm.trans hu)
  obtain rfl := eq_cmdWord hop hlow
  exact execute_cmdWord ho (.inr hu) idx

end Machine

end Sys2Proof
end

