-- ==== Sys2Proof/Proofs/Tables.lean ====
section
/-! The table access commands XORP, WRP, RDP, WRS, RDS, STP and STS (43_tables.md): the command step on each index
form, legal and illegal, and from it the effects. -/

namespace Sys2Proof.Machine

/-! ### The index forms on an index given by its number -/

theorem pIndex_ofNat (n : Fin 18) : pIndex (BitVec.ofNat 8 n) = .ok n := by
  have hn : (BitVec.ofNat 8 n.val).toNat = n := by rw [BitVec.toNat_ofNat]; omega
  rw [pIndex_of_le (by omega)]
  exact congrArg Except.ok (Fin.ext hn)

theorem sIndex_ofNat (k : Fin 4) (j : Fin 256) : sIndex (BitVec.ofNat 2 k) (BitVec.ofNat 8 j) = .ok (k, j) := by
  have hk : (BitVec.ofNat 2 k.val).toNat = k := by rw [BitVec.toNat_ofNat]; omega
  have hj : (BitVec.ofNat 8 j.val).toNat = j := by rw [BitVec.toNat_ofNat]; omega
  exact congrArg Except.ok (Prod.ext (Fin.ext hk) (Fin.ext hj))

/-! ### Two writes as one -/

theorem writeP_writeP (s : State) (n : Fin 18) (v w : Word) : (s.writeP n v).writeP n w = s.writeP n w := by
  simp [State.writeP]

/-- The two writes of a pair store into an S-box are one write of the box. -/
theorem storePairS_sbox_eq_set (s : State) (k : Fin 4) (n : Fin 128) :
    (s.storePairS k n).sbox = s.sbox.set k ((s.sbox[k].set (2 * n.val) s.bl).set (2 * n.val + 1) s.br) := by
  simp [State.storePairS, sPairEven, sPairOdd]

/-! ### The command step on each index form -/

section CommandStep

variable {s : State} (he : s.err = false)
include he

theorem command_pIndex_ofNat (f : Fin 18 → State → State) (n : Fin 18) :
    command (pIndex (BitVec.ofNat 8 n)) f s = .next (f n s) := by
  rw [pIndex_ofNat, command_ok _ _ he]

theorem command_pIndex_of_gt (f : Fin 18 → State → State) {i : BitVec 8} (h : 17 < i.toNat) :
    command (pIndex i) f s = .next (s.raiseError .indexRange) := by
  rw [pIndex_of_gt h, command_error _ _ he]

theorem command_sIndex_ofNat (f : Fin 4 × Fin 256 → State → State) (k : Fin 4) (j : Fin 256) :
    command (sIndex (BitVec.ofNat 2 k) (BitVec.ofNat 8 j)) f s = .next (f (k, j) s) := by
  rw [sIndex_ofNat, command_ok _ _ he]

/-! ### The commands on a word of P or S -/

theorem exec_xorp_ofNat (n : Fin 18) (a : Word) :
    exec (.xorp (BitVec.ofNat 8 n) a) s = .next (s.writeP n (s.readP n ^^^ a)) :=
  (exec_xorp _ a s).trans (command_pIndex_ofNat he _ n)

theorem exec_xorp_of_gt {i : BitVec 8} (a : Word) (h : 17 < i.toNat) :
    exec (.xorp i a) s = .next (s.raiseError .indexRange) :=
  (exec_xorp i a s).trans (command_pIndex_of_gt he _ h)

theorem exec_wrp_ofNat (n : Fin 18) (a : Word) : exec (.wrp (BitVec.ofNat 8 n) a) s = .next (s.writeP n a) :=
  (exec_wrp _ a s).trans (command_pIndex_ofNat he _ n)

theorem exec_wrp_of_gt {i : BitVec 8} (a : Word) (h : 17 < i.toNat) :
    exec (.wrp i a) s = .next (s.raiseError .indexRange) :=
  (exec_wrp i a s).trans (command_pIndex_of_gt he _ h)

theorem exec_rdp_ofNat (n : Fin 18) : exec (.rdp (BitVec.ofNat 8 n)) s = .next (s.setY (s.readP n)) :=
  (exec_rdp _ s).trans (command_pIndex_ofNat he _ n)

theorem exec_rdp_of_gt {i : BitVec 8} (h : 17 < i.toNat) :
    exec (.rdp i) s = .next (s.raiseError .indexRange) :=
  (exec_rdp i s).trans (command_pIndex_of_gt he _ h)

theorem exec_wrs_ofNat (k : Fin 4) (j : Fin 256) (a : Word) :
    exec (.wrs (BitVec.ofNat 2 k) (BitVec.ofNat 8 j) a) s = .next (s.writeS k j a) :=
  (exec_wrs _ _ a s).trans (command_sIndex_ofNat he _ k j)

theorem exec_rds_ofNat (k : Fin 4) (j : Fin 256) :
    exec (.rds (BitVec.ofNat 2 k) (BitVec.ofNat 8 j)) s = .next (s.setY (s.readS k j)) :=
  (exec_rds _ _ s).trans (command_sIndex_ofNat he _ k j)

/-! ### The pair stores -/

theorem exec_stp_ofNat (n : Fin 9) : exec (.stp (BitVec.ofNat 8 (2 * n.val))) s = .next (s.storePairP n) := by
  rw [exec_stp, pPair_ofNat, command_ok _ _ he]

theorem exec_stp_of_gt {i : BitVec 8} (h : 16 < i.toNat) : exec (.stp i) s = .next (s.raiseError .indexRange) := by
  rw [exec_stp, pPair_of_gt h, command_error _ _ he]

theorem exec_stp_of_odd {i : BitVec 8} (h : i.toNat ≤ 16) (ho : i.toNat % 2 = 1) :
    exec (.stp i) s = .next (s.raiseError .indexAlign) := by
  rw [exec_stp, pPair_of_odd h ho, command_error _ _ he]

theorem exec_sts_ofNat (k : Fin 4) (n : Fin 128) :
    exec (.sts (BitVec.ofNat 2 k) (BitVec.ofNat 8 (2 * n.val))) s =
      .next { s with sbox := s.sbox.set k ((s.sbox[k].set (2 * n.val) s.bl).set (2 * n.val + 1) s.br) } := by
  rw [exec_sts, sPair_ofNat, command_ok _ _ he, ← storePairS_sbox_eq_set]
  rfl

theorem exec_sts_of_odd (k : BitVec 2) {i : BitVec 8} (ho : i.toNat % 2 = 1) :
    exec (.sts k i) s = .next (s.raiseError .indexAlign) := by
  rw [exec_sts, sPair_of_odd k ho, command_error _ _ he]

/-! ### The corner cases of rule R130 -/

theorem exec_xorp_zero (n : Fin 18) : exec (.xorp (BitVec.ofNat 8 n) 0) s = .next s := by
  have hxor : s.readP n ^^^ 0 = s.readP n := BitVec.xor_zero
  rw [exec_xorp_ofNat he, hxor, writeP_eq_self rfl]

/-- A second XORP with the same operands takes the first one back. -/
theorem exec_xorp_of_exec_xorp {t : State} {n : Fin 18} {a : Word}
    (h : exec (.xorp (BitVec.ofNat 8 n) a) s = .next t) : exec (.xorp (BitVec.ofNat 8 n) a) t = .next s := by
  obtain rfl : s.writeP n (s.readP n ^^^ a) = t := Host.Outcome.next.inj ((exec_xorp_ofNat he n a).symm.trans h)
  rw [exec_xorp_ofNat (by simpa using he), readP_writeP_same, xor_xor_same, writeP_writeP, writeP_eq_self rfl]

end CommandStep

/-! ### The statements -/

/-- Settles O29: XORP's effect and range, the encoding of its row, and what the xor gives on 0 and twice. -/
theorem xorpXorsOneWordOfP : Obligations.XorpXorsOneWordOfP :=
  ⟨fun _ n a he => exec_xorp_ofNat he n a, fun _ _ a he h => exec_xorp_of_gt he a h,
    fun _ _ _ _ he hop => execute_of_usesBox_false (o := .xorp) nofun rfl he hop,
    fun _ n he => exec_xorp_zero he n, fun _ _ _ _ he h => exec_xorp_of_exec_xorp he h⟩

/-- Settles O30: WRP's effect and range, and the encoding of its row. -/
theorem wrpWritesOneWordOfP : Obligations.WrpWritesOneWordOfP :=
  ⟨fun _ n a he => exec_wrp_ofNat he n a, fun _ _ a he h => exec_wrp_of_gt he a h,
    fun _ _ _ _ he hop => execute_of_usesBox_false (o := .wrp) nofun rfl he hop⟩

/-- Settles O31: RDP's effect and range, the encoding of its row, and P[1] after reset. -/
theorem rdpReadsOneWordOfP : Obligations.RdpReadsOneWordOfP :=
  ⟨fun _ n he => exec_rdp_ofNat he n, fun _ _ he h => exec_rdp_of_gt he h,
    fun _ _ _ _ he hop => execute_of_usesBox_false (o := .rdp) nofun rfl he hop, exec_rdp_ofNat rfl 1⟩

/-- Settles O32: WRS's effect, which has no range to leave, and the encoding of its row. -/
theorem wrsWritesOneWordOfS : Obligations.WrsWritesOneWordOfS :=
  ⟨fun _ k j a he => exec_wrs_ofNat he k j a,
    fun _ _ _ _ he hop => execute_of_usesBox (o := .wrs) rfl he hop⟩

/-- Settles O33: RDS's effect, the encoding of its row, and the two words of the reset tables. -/
theorem rdsReadsOneWordOfS : Obligations.RdsReadsOneWordOfS :=
  ⟨fun _ k j he => exec_rds_ofNat he k j,
    fun _ _ _ _ he hop => execute_of_usesBox (o := .rds) rfl he hop,
    exec_rds_ofNat rfl 3 255, exec_rds_ofNat rfl 2 128⟩

/-- Settles O34: STP's effect, its range before its alignment, and the encoding of its row. -/
theorem stpStoresTheBlockPairInP : Obligations.StpStoresTheBlockPairInP :=
  ⟨fun _ n he => exec_stp_ofNat he n, fun _ _ he h => exec_stp_of_gt he h,
    fun _ _ he h ho => exec_stp_of_odd he h ho,
    fun _ _ _ _ he hop => execute_of_usesBox_false (o := .stp) nofun rfl he hop⟩

/-- Settles O35: STS's effect and alignment, and the encoding of its row. -/
theorem stsStoresTheBlockPairInS : Obligations.StsStoresTheBlockPairInS :=
  ⟨fun _ k n he => exec_sts_ofNat he k n, fun _ k _ he ho => exec_sts_of_odd he k ho,
    fun _ _ _ _ he hop => execute_of_usesBox (o := .sts) rfl he hop⟩

end Sys2Proof.Machine
end

