-- ==== Sys2Proof/Proofs/Sequences.lean ====
section
/-! A host's sequence of commands (30_encoding.md rule R80, 70_reset_and_hazards.md rule R235): issuing it command by
command, and the members, the counts and the run of a host loop. -/

namespace Sys2Proof.Machine

/-! ### Issuing commands -/

@[simp] theorem issue_nil (s : State) : issue [] s = .next s := rfl

theorem issue_cons (i : Instr) (is : List Instr) (s : State) : issue (i :: is) s = andThen (exec i s) (issue is) := by
  rw [issue, List.map_cons, issueAll_cons, execute_encode]
  rfl

theorem issue_cons_of_exec {i : Instr} {s t : State} (h : exec i s = .next t) (is : List Instr) :
    issue (i :: is) s = issue is t := by
  rw [issue_cons, h, andThen_next]

theorem issue_singleton_of_exec {i : Instr} {s t : State} (h : exec i s = .next t) : issue [i] s = .next t :=
  issue_cons_of_exec h []

theorem issue_append_of_issue {is : List Instr} {s t : State} (h : issue is s = .next t) (js : List Instr) :
    issue (is ++ js) s = issue js t := by
  rw [issue_append, h, andThen_next]

/-! ### Host loops -/

theorem mem_forRange {α : Type} {a b : Nat} {body : Nat → List α} {x : α} :
    x ∈ forRange a b body ↔ ∃ n, (a ≤ n ∧ n ≤ b) ∧ x ∈ body n := by
  have hbound (n : Nat) : a ≤ n ∧ n < a + (b + 1 - a) ↔ a ≤ n ∧ n ≤ b := by omega
  simp only [forRange, List.mem_flatMap, List.mem_range'_1, hbound]

theorem mem_of_mem_repeatCopies {α : Type} {n : Nat} {body : List α} {x : α} (h : x ∈ repeatCopies n body) :
    x ∈ body := by
  obtain ⟨copy, hcopy, hx⟩ := List.mem_flatten.mp h
  exact List.eq_of_mem_replicate hcopy ▸ hx

theorem forRange_congr {α : Type} {a b : Nat} {body body' : Nat → List α}
    (h : ∀ n, a ≤ n → n ≤ b → body n = body' n) : forRange a b body = forRange a b body' :=
  List.flatMap_congr fun n hn => by
    obtain ⟨hle, hlt⟩ := List.mem_range'_1.mp hn
    exact h n hle (by omega)

theorem length_forRange {α : Type} {a b c : Nat} {body : Nat → List α} (h : ∀ n, (body n).length = c) :
    (forRange a b body).length = (b + 1 - a) * c := by
  simp [forRange, List.length_flatMap, h]

theorem count_forRange {α : Type} [BEq α] {a b c : Nat} {body : Nat → List α} {x : α}
    (h : ∀ n, (body n).count x = c) : (forRange a b body).count x = (b + 1 - a) * c := by
  simp [forRange, List.count_flatMap, Function.comp_def, h]

theorem length_repeatCopies {α : Type} (n : Nat) (body : List α) :
    (repeatCopies n body).length = n * body.length := by
  simp [repeatCopies]

theorem count_repeatCopies {α : Type} [BEq α] (n : Nat) (body : List α) (x : α) :
    (repeatCopies n body).count x = n * body.count x := by
  simp [repeatCopies, List.count_flatten]

/-- A loop ends where a sequence of states ends that each run of its body follows. -/
theorem issue_flatMap_range'_of_trace {body : Nat → List Instr} {x : Nat → State} {a k : Nat}
    (h : ∀ n, a ≤ n → n < a + k → issue (body n) (x n) = .next (x (n + 1))) :
    issue ((List.range' a k).flatMap body) (x a) = .next (x (a + k)) := by
  induction k generalizing a with
  | zero => rfl
  | succ k ih =>
    have hlater : issue ((List.range' (a + 1) k).flatMap body) (x (a + 1)) = .next (x (a + 1 + k)) :=
      ih fun n hle hlt => h n (by omega) (by omega)
    rw [List.range'_succ, List.flatMap_cons, issue_append_of_issue (h a le_rfl (by omega)), hlater,
      Nat.succ_add_eq_add_succ]

theorem issue_forRange_of_trace {body : Nat → List Instr} {x : Nat → State} {b : Nat}
    (h : ∀ n, n ≤ b → issue (body n) (x n) = .next (x (n + 1))) :
    issue (forRange 0 b body) (x 0) = .next (x (b + 1)) := by
  have hrun := issue_flatMap_range'_of_trace (a := 0) (k := b + 1) fun n _ hlt => h n (by omega)
  rwa [Nat.zero_add] at hrun

end Sys2Proof.Machine
end

