-- ==== Sys2Proof/Proofs/KeyMix.lean ====
section
/-! The key stream and KeyMix (45_host_sequences.md rules R152 to R154). -/

namespace Sys2Proof.Machine

/-! ### The longest key -/

theorem keyMix_congr {m n : Nat} {data : Vector Byte (m + 1)} {data' : Vector Byte (n + 1)}
    (h : ∀ i ≤ 17, streamWord data (4 * i) = streamWord data' (4 * i)) : keyMix data = keyMix data' :=
  forRange_congr fun i _ hi => by rw [h i hi]

theorem streamWord_congr {m n : Nat} {data : Vector Byte (m + 1)} {data' : Vector Byte (n + 1)} {j : Nat}
    (h : ∀ l ≤ j + 3, cyclicByte data l = cyclicByte data' l) : streamWord data j = streamWord data' j := by
  rw [streamWord, streamWord, h j (by omega), h (j + 1) (by omega), h (j + 2) (by omega), h (j + 3) le_rfl]

theorem cyclicByte_of_le {n j : Nat} (data : Vector Byte (n + 1)) (h : j ≤ n) :
    cyclicByte data j = data[j] := by
  simp only [cyclicByte, Nat.mod_eq_of_lt (Nat.lt_succ_of_le h)]

/-- The bytes of the key stand before the NUL byte. -/
theorem cyclicByte_keyPrime {key : List Byte} {j : Nat} (h : j < key.length) :
    cyclicByte (keyPrime key) j = key[j] := by
  rw [cyclicByte_of_le _ h.le]
  simp [keyPrime, h]

/-- Settles O49: KeyMix reads bytes 0 to 71 of the stream, and those are the bytes of the key either way. -/
theorem longestKeyNeverReachesItsNul : Obligations.LongestKeyNeverReachesItsNul := by
  intro key hlen
  refine keyMix_congr fun i hi => streamWord_congr fun j hj => ?_
  have hj71 : j ≤ 71 := by omega
  rw [cyclicByte_keyPrime (by omega), cyclicByte_of_le _ hj71]
  rfl

/-! ### What KeyMix does -/

/-- `s` with the first `m` words of P xored with the key stream. -/
def State.mixed {n : Nat} (s : State) (data : Vector Byte (n + 1)) (m : Nat) : State :=
  { s with p := Vector.ofFn fun i : Fin 18 =>
      if i.val < m then s.p[i] ^^^ streamWord data (4 * i.val) else s.p[i] }

section Mixed

variable {n : Nat} (s : State) (data : Vector Byte (n + 1))

theorem mixed_err (m : Nat) : (s.mixed data m).err = s.err := by
  simp only [State.mixed]

theorem getElem_mixed_p (m : Nat) {i : Nat} (hi : i < 18) :
    (s.mixed data m).p[i] = if i < m then s.p[i] ^^^ streamWord data (4 * i) else s.p[i] :=
  Vector.getElem_ofFn hi

theorem mixed_zero : s.mixed data 0 = s := by
  refine congrArg (fun p => { s with p := p }) (Vector.ext fun i hi => ?_)
  rw [Vector.getElem_ofFn, if_neg (Nat.not_lt_zero i)]
  rfl

/-- With all 18 words done, every word of P is xored. -/
theorem mixed_eighteen : s.mixed data 18 =
    { s with p := Vector.ofFn fun i : Fin 18 => s.p[i] ^^^ streamWord data (4 * i.val) } := by
  simp only [State.mixed, Fin.is_lt, if_true]

theorem readP_mixed_self (m : Fin 18) : (s.mixed data m).readP m = s.readP m :=
  (getElem_mixed_p s data m m.isLt).trans (if_neg (lt_irrefl m.val))

/-- Xoring word `m` of P is one word more. -/
theorem writeP_mixed (m : Fin 18) :
    (s.mixed data m).writeP m (s.readP m ^^^ streamWord data (4 * m.val)) = s.mixed data (m + 1) := by
  refine congrArg (fun p => { s with p := p }) (Vector.ext fun i hi => ?_)
  rw [Vector.getElem_set, getElem_mixed_p, Vector.getElem_ofFn]
  rcases Nat.lt_trichotomy i m.val with hlt | rfl | hgt
  · rw [if_neg hlt.ne', if_pos hlt, if_pos (Nat.lt_succ_of_lt hlt)]
    rfl
  · rw [if_pos rfl, if_pos (Nat.lt_succ_self _)]
    rfl
  · rw [if_neg hgt.ne, if_neg hgt.not_gt, if_neg (Nat.not_lt.mpr hgt)]
    rfl

/-- One command of KeyMix. -/
theorem issue_xorp_mixed {s : State} (he : s.err = false) {m : Nat} (hm : m ≤ 17) :
    issue [.xorp (BitVec.ofNat 8 m) (streamWord data (4 * m))] (s.mixed data m) = .next (s.mixed data (m + 1)) := by
  lift m to Fin 18 using Nat.lt_succ_of_le hm
  have hexec := exec_xorp_ofNat ((mixed_err s data m).trans he) m (streamWord data (4 * m.val))
  rw [readP_mixed_self, writeP_mixed] at hexec
  exact issue_singleton_of_exec hexec

/-- KeyMix of `data` (rule R154). -/
theorem issue_keyMix {s : State} (he : s.err = false) : issue (keyMix data) s = .next (s.mixed data 18) := by
  have hrun := issue_forRange_of_trace (x := s.mixed data) fun m hm => issue_xorp_mixed data he hm
  rwa [mixed_zero] at hrun

end Mixed

/-- Settles O50, by the trace of the 18 commands: each xors one word more of P. -/
theorem keyMixXorsTheKeyStreamIntoP : Obligations.KeyMixXorsTheKeyStreamIntoP := by
  intro n data s he
  rw [issue_keyMix data he, mixed_eighteen]

end Sys2Proof.Machine
end

