-- ==== Sys2Proof/Proofs/WorkCounts.lean ====
section
/-! How many commands, and how many of them ENC, each host sequence issues (45_host_sequences.md rule R162). -/

namespace Sys2Proof.Machine

section Counts

variable {n : Nat} (sw : Vector Word 4) (salt : Vector Byte 16) (data : Vector Byte (n + 1))

theorem stn_ne_enc (m : Nat) : stn m ≠ .enc := by
  unfold stn
  split <;> nofun

theorem length_keyMix : (keyMix data).length = 18 := length_forRange (c := 1) fun _ => rfl

theorem count_enc_keyMix : (keyMix data).count .enc = 0 := count_forRange (c := 0) fun _ => rfl

/-- CLRBLK, and three commands for each of the 521 pairs. -/
theorem length_refill : (refill sw).length = 1564 := by
  rw [refill, List.length_cons, length_forRange (c := 3) fun _ => rfl]

theorem count_enc_refill : (refill sw).count .enc = 521 := by
  have hpair (m : Nat) :
      [.xblk (saltWord sw (2 * m)) (saltWord sw (2 * m + 1)), .enc, stn m].count Instr.enc = 1 := by
    simp [stn_ne_enc]
  rw [refill, List.count_cons_of_ne (by simp [clrblk]), count_forRange hpair]

theorem length_expandKey : (expandKey salt data).length = 1582 := by
  rw [expandKey, List.length_append, length_keyMix, length_refill]

theorem count_enc_expandKey : (expandKey salt data).count .enc = 521 := by
  rw [expandKey, List.count_append, count_enc_keyMix, count_enc_refill, Nat.zero_add]

/-- INIT, one expand_key, and two more for each of the 2^cost repetitions. -/
theorem length_eksSetup (cost : Nat) : (eksSetup cost salt data).length = 1 + 1582 * (1 + 2 ^ (cost + 1)) := by
  rw [eksSetup, List.length_cons, List.length_append, length_repeatCopies, List.length_append]
  simp only [length_expandKey]
  ring

theorem count_enc_eksSetup (cost : Nat) :
    (eksSetup cost salt data).count .enc = 521 * (1 + 2 ^ (cost + 1)) := by
  rw [eksSetup, List.count_cons_of_ne (by simp), List.count_append, count_repeatCopies, List.count_append]
  simp only [count_enc_expandKey]
  ring

end Counts

/-- Settles O51, sequence by sequence: a loop issues its range times what its body does. -/
theorem hostSequenceWorkCounts : Obligations.HostSequenceWorkCounts := fun _ cost sw salt data =>
  ⟨length_keyMix data, count_enc_keyMix data, length_refill sw, count_enc_refill sw, length_expandKey salt data,
    count_enc_expandKey salt data, length_eksSetup salt data cost, count_enc_eksSetup salt data cost⟩

end Sys2Proof.Machine
end

