-- ==== Sys2Proof/Proofs/KeySetup.lean ====
section
/-! EksSetup (45_host_sequences.md rules R157, R160, R161): it issues legal commands that write no result and no
STATUS, and what it leaves in P, S and the block does not depend on what stood there. -/

namespace Sys2Proof.Machine

/-! ### The commands of the setup -/

/-- A command with legal operands that writes tables and block only: not Y, and no STATUS. -/
structure IsSetupCommand (i : Instr) : Prop where
  wellFormed : i.wellFormed = true
  op : i.op ∈ [Op.init, .ldblk, .xblk, .enc, .xorp, .stp, .sts]

theorem isSetupCommand_xorp {m : Nat} (hm : m ≤ 17) (a : Word) : IsSetupCommand (.xorp (BitVec.ofNat 8 m) a) where
  wellFormed := by simp only [Instr.wellFormed, BitVec.toNat_ofNat, decide_eq_true_eq]; omega
  op := by simp [Instr.op]

/-- The IDX of STN is even, and in the range of P where the pair is one of P's. -/
theorem isSetupCommand_stn (m : Nat) : IsSetupCommand (stn m) := by
  unfold stn
  split
  · refine ⟨?_, by simp [Instr.op]⟩
    simp only [Instr.wellFormed, BitVec.toNat_ofNat, Bool.and_eq_true, decide_eq_true_eq]
    omega
  · refine ⟨?_, by simp [Instr.op]⟩
    simp only [Instr.wellFormed, BitVec.toNat_ofNat, decide_eq_true_eq]
    omega

theorem isSetupCommand_of_mem_keyMix {n : Nat} {data : Vector Byte (n + 1)} {i : Instr} (h : i ∈ keyMix data) :
    IsSetupCommand i := by
  obtain ⟨m, ⟨-, hm⟩, hi⟩ := mem_forRange.mp h
  exact List.mem_singleton.mp hi ▸ isSetupCommand_xorp hm _

theorem isSetupCommand_of_mem_refill {sw : Vector Word 4} {i : Instr} (h : i ∈ refill sw) : IsSetupCommand i := by
  rcases List.mem_cons.mp h with rfl | hloop
  · exact ⟨rfl, by decide⟩
  · obtain ⟨m, -, hi⟩ := mem_forRange.mp hloop
    simp only [List.mem_cons, List.not_mem_nil, or_false] at hi
    rcases hi with rfl | rfl | rfl
    · exact ⟨rfl, by simp [Instr.op]⟩
    · exact ⟨rfl, by decide⟩
    · exact isSetupCommand_stn m

theorem isSetupCommand_of_mem_expandKey {n : Nat} {salt : Vector Byte 16} {data : Vector Byte (n + 1)} {i : Instr}
    (h : i ∈ expandKey salt data) : IsSetupCommand i := by
  rcases List.mem_append.mp h with hmix | hrefill
  · exact isSetupCommand_of_mem_keyMix hmix
  · exact isSetupCommand_of_mem_refill hrefill

theorem isSetupCommand_of_mem_eksSetup {n cost : Nat} {salt : Vector Byte 16} {key' : Vector Byte (n + 1)} {i : Instr}
    (h : i ∈ eksSetup cost salt key') : IsSetupCommand i := by
  rcases List.mem_cons.mp h with rfl | htail
  · exact ⟨rfl, by decide⟩
  · rcases List.mem_append.mp htail with hsalted | hcopies
    · exact isSetupCommand_of_mem_expandKey hsalted
    · rcases List.mem_append.mp (mem_of_mem_repeatCopies hcopies) with hkey | hsalt
      · exact isSetupCommand_of_mem_expandKey hkey
      · exact isSetupCommand_of_mem_expandKey hsalt

/-- Setup commands complete and keep ERR, Y and the host's pending inputs. -/
theorem issue_of_isSetupCommand {is : List Instr} (h : ∀ i ∈ is, IsSetupCommand i) (s : State) :
    ∃ t, issue is s = .next t ∧ t.err = s.err ∧ t.y = s.y ∧ t.port = s.port := by
  induction is generalizing s with
  | nil => exact ⟨s, rfl, rfl, rfl, rfl⟩
  | cons i is ih =>
    obtain ⟨hi, his⟩ := List.forall_mem_cons.mp h
    obtain ⟨u, hu⟩ := exec_completes i s
    obtain ⟨t, ht, herr, hy, hport⟩ := ih his u
    obtain ⟨huerr, -⟩ := exec_keeps_status hu hi.wellFormed
    exact ⟨t, (issue_cons_of_exec hu is).trans ht, herr.trans huerr, hy.trans (exec_keeps_y hu hi.op),
      hport.trans (exec_keeps_port hu)⟩

/-- Settles O52, from the commands EksSetup is made of. -/
theorem setupKeepsErrClear : Obligations.SetupKeepsErrClear := by
  intro n cost salt key' s he
  obtain ⟨t, ht, herr, hy, hport⟩ := issue_of_isSetupCommand (fun _ => isSetupCommand_of_mem_eksSetup) s
  exact ⟨fun i hi => (isSetupCommand_of_mem_eksSetup hi).wellFormed, t, ht, herr.trans he, hy, hport⟩

/-! ### What a command reads: P, S, the block and ERR -/

/-- Two cores with the same P, S, block and ERR; Y, ECODE and the host's inputs may differ. -/
structure AgreeOnRead (s s' : State) : Prop where
  p : s.p = s'.p
  sbox : s.sbox = s'.sbox
  bl : s.bl = s'.bl
  br : s.br = s'.br
  err : s.err = s'.err

namespace AgreeOnRead

variable {s s' : State} (h : AgreeOnRead s s')
include h

theorem readP (n : Fin 18) : s.readP n = s'.readP n := readP_of_p_eq h.p n

theorem setBlock (l r : Word) : AgreeOnRead (s.setBlock l r) (s'.setBlock l r) :=
  { h with bl := rfl, br := rfl }

theorem setY (w w' : Word) : AgreeOnRead (s.setY w) (s'.setY w') := { h with }

theorem writeP (n : Fin 18) (w : Word) : AgreeOnRead (s.writeP n w) (s'.writeP n w) :=
  { h with p := by rw [writeP_p, writeP_p, h.p] }

theorem writeS (k : Fin 4) (j : Fin 256) (w : Word) : AgreeOnRead (s.writeS k j w) (s'.writeS k j w) :=
  { h with sbox := by rw [writeS_sbox, writeS_sbox, h.sbox] }

theorem storePairP (n : Fin 9) : AgreeOnRead (s.storePairP n) (s'.storePairP n) := by
  rw [State.storePairP, State.storePairP, h.bl, h.br]
  exact (h.writeP _ _).writeP _ _

theorem storePairS (k : Fin 4) (n : Fin 128) : AgreeOnRead (s.storePairS k n) (s'.storePairS k n) := by
  rw [State.storePairS, State.storePairS, h.bl, h.br]
  exact (h.writeS _ _ _).writeS _ _ _

theorem loadTables : AgreeOnRead s.loadTables s'.loadTables := { h with p := rfl, sbox := rfl }

theorem clearData : AgreeOnRead s.clearData s'.clearData :=
  { h with p := rfl, sbox := rfl, bl := rfl, br := rfl }

theorem raiseError (code : ErrorCode) : AgreeOnRead (s.raiseError code) (s'.raiseError code) :=
  { h with err := rfl }

/-- A command step on agreeing cores leaves agreeing cores, where its effect does. -/
theorem command {α : Type} (c : Except ErrorCode α) {f : α → State → State}
    (hf : ∀ x, AgreeOnRead (f x s) (f x s')) :
    ∃ t t', Machine.command c f s = .next t ∧ Machine.command c f s' = .next t' ∧ AgreeOnRead t t' := by
  cases he : s.err with
  | true => exact ⟨s, s', command_blocked c f he, command_blocked c f (h.err ▸ he), h⟩
  | false =>
    have he' : s'.err = false := h.err ▸ he
    cases c with
    | error code => exact ⟨_, _, command_error code f he, command_error code f he', h.raiseError code⟩
    | ok x => exact ⟨_, _, command_ok x f he, command_ok x f he', hf x⟩

theorem exec (i : Instr) :
    ∃ t t', Machine.exec i s = .next t ∧ Machine.exec i s' = .next t' ∧ AgreeOnRead t t' := by
  cases i
  all_goals
    simp only [exec_nop, exec_init, exec_wipe, exec_ldblk, exec_xblk, exec_enc, exec_feval, exec_xorp, exec_wrp,
      exec_rdp, exec_wrs, exec_rds, exec_stp, exec_sts]
  case nop => exact h.command _ fun _ => h
  case init => exact h.command _ fun _ => h.loadTables
  case wipe => exact h.command _ fun _ => h.clearData
  case ldblk a b => exact h.command _ fun _ => h.setBlock a b
  case xblk a b =>
    refine h.command _ fun _ => ?_
    rw [h.bl, h.br]
    exact h.setBlock _ _
  case enc =>
    refine h.command _ fun _ => ?_
    rw [h.bl, h.br, encryptBlock_congr h.p h.sbox]
    exact h.setBlock _ _
  case feval a => exact h.command _ fun _ => h.setY _ _
  case xorp i a =>
    refine h.command _ fun n => ?_
    rw [h.readP n]
    exact h.writeP _ _
  case wrp i a => exact h.command _ fun n => h.writeP n a
  case stp i => exact h.command _ fun n => h.storePairP n
  case wrs k i a => exact h.command _ fun kj => h.writeS kj.1 kj.2 a
  case sts k i => exact h.command _ fun kn => h.storePairS kn.1 kn.2
  case rdp i => exact h.command _ fun _ => h.setY _ _
  case rds k i => exact h.command _ fun _ => h.setY _ _

end AgreeOnRead

/-- Agreeing cores agree after any sequence of commands. -/
theorem issue_of_agreeOnRead (is : List Instr) {s s' : State} (h : AgreeOnRead s s') :
    ∃ t t', issue is s = .next t ∧ issue is s' = .next t' ∧ AgreeOnRead t t' := by
  induction is generalizing s s' with
  | nil => exact ⟨s, s', rfl, rfl, h⟩
  | cons i is ih =>
    obtain ⟨u, u', hu, hu', hagree⟩ := h.exec i
    rw [issue_cons_of_exec hu, issue_cons_of_exec hu']
    exact ih hagree

/-! ### The setup overwrites P, S and the block before it reads them -/

theorem refill_eq_cons (sw : Vector Word 4) : ∃ pairs, refill sw = clrblk :: pairs := ⟨_, rfl⟩

/-- INIT, KeyMix and the CLRBLK of the first Refill. -/
theorem eksSetup_eq_append {n : Nat} (cost : Nat) (salt : Vector Byte 16) (key' : Vector Byte (n + 1)) :
    ∃ rest, eksSetup cost salt key' = (.init :: keyMix key' ++ [clrblk]) ++ rest := by
  obtain ⟨pairs, hrefill⟩ := refill_eq_cons (saltWords salt)
  refine ⟨pairs ++ repeatCopies (2 ^ cost) (expandKey zeroSalt key' ++ expandKey (n := 15) zeroSalt salt), ?_⟩
  simp only [eksSetup, expandKey, hrefill, List.append_assoc, List.cons_append, List.nil_append]

theorem exec_clrblk {s : State} (he : s.err = false) : exec clrblk s = .next (s.setBlock 0 0) :=
  exec_ldblk_of_err_false he 0 0

/-- After INIT, KeyMix and CLRBLK: the mixed constant tables and a zero block. -/
theorem issue_init_keyMix_clrblk {n : Nat} (data : Vector Byte (n + 1)) {s : State} (he : s.err = false) :
    issue (.init :: keyMix data ++ [clrblk]) s = .next ((s.loadTables.mixed data 18).setBlock 0 0) := by
  have herr : (s.loadTables.mixed data 18).err = false := (mixed_err _ data 18).trans he
  rw [List.cons_append, issue_cons_of_exec (exec_init_of_err_false he),
    issue_append_of_issue (issue_keyMix data (s := s.loadTables) he)]
  exact issue_singleton_of_exec (exec_clrblk herr)

theorem agreeOnRead_of_init_keyMix_clrblk {n : Nat} (data : Vector Byte (n + 1)) {s s' : State} (he : s.err = s'.err) :
    AgreeOnRead ((s.loadTables.mixed data 18).setBlock 0 0) ((s'.loadTables.mixed data 18).setBlock 0 0) where
  p := by simp only [setBlock_p, State.mixed, loadTables_p]
  sbox := by simp only [setBlock_sbox, State.mixed, loadTables_sbox]
  bl := rfl
  br := rfl
  err := by simpa only [setBlock_err, mixed_err, loadTables_err] using he

/-- Settles O53: INIT, KeyMix and CLRBLK leave two cores that agree on all a command reads, and so does the rest. -/
theorem setupForgetsTheOldState : Obligations.SetupForgetsTheOldState := by
  intro n cost salt key' s s' he he'
  obtain ⟨rest, hsetup⟩ := eksSetup_eq_append cost salt key'
  obtain ⟨t, t', ht, ht', hagree⟩ :=
    issue_of_agreeOnRead rest (agreeOnRead_of_init_keyMix_clrblk key' (he.trans he'.symm))
  refine ⟨t, t', ?_, ?_, hagree.p, hagree.sbox, hagree.bl, hagree.br⟩
  · rw [hsetup, issue_append_of_issue (issue_init_keyMix_clrblk key' he), ht]
  · rw [hsetup, issue_append_of_issue (issue_init_keyMix_clrblk key' he'), ht']

end Sys2Proof.Machine
end

