-- ==== Sys2Proof/Proofs/Bcrypt.lean ====
section
/-! The bcrypt driver (45_host_sequences.md rules R151, R159 to R161, R164): the plaintext as a function of P and S, the
computation it is part of, and the input checks before it. -/

namespace Sys2Proof.Machine

/-! ### The plaintext passes -/

/-- The text with block `b` encrypted under the P and S of `s` (rule R159). -/
def encryptWords (s : State) (b : Fin 3) (ct : Vector Word 6) : Vector Word 6 :=
  let e := encryptBlock s ct[2 * b.val] ct[2 * b.val + 1]
  (ct.set (2 * b.val) e.1).set (2 * b.val + 1) e.2

/-- The text with each of its three blocks encrypted. -/
def encryptPass (s : State) (ct : Vector Word 6) : Vector Word 6 :=
  encryptWords s 2 (encryptWords s 1 (encryptWords s 0 ct))

theorem encryptPass_congr {s t : State} (hp : s.p = t.p) (hs : s.sbox = t.sbox) : encryptPass s = encryptPass t := by
  funext ct
  simp only [encryptPass, encryptWords, encryptBlock_congr hp hs]

theorem issue_ldblk_enc {s : State} (he : s.err = false) (l r : Word) :
    issue [.ldblk l r, .enc] s = .next (s.setBlock (encryptBlock s l r).1 (encryptBlock s l r).2) := by
  rw [issue_cons_of_exec (exec_ldblk_of_err_false he l r),
    issue_singleton_of_exec (exec_enc_of_err_false (s := s.setBlock l r) he)]
  rfl

/-- Settles O54: the block is loaded, encrypted and read back. -/
theorem plaintextBlocksAreIndependent : Obligations.PlaintextBlocksAreIndependent := by
  intro b ct s he
  simp only [encryptText, issue_ldblk_enc he]
  rfl

section Passes

variable {s : State} (he : s.err = false)
include he

/-- Encrypting a block of the text uses the block register only. -/
theorem encryptText_setBlock (b : Fin 3) (ct : Vector Word 6) (l r : Word) :
    ∃ l' r', encryptText b (ct, s.setBlock l r) = .next (encryptWords s b ct, s.setBlock l' r') :=
  ⟨_, _, plaintextBlocksAreIndependent b ct (s.setBlock l r) he⟩

theorem textPass_setBlock (ct : Vector Word 6) (l r : Word) :
    ∃ l' r', textPass (ct, s.setBlock l r) = .next (encryptPass s ct, s.setBlock l' r') := by
  obtain ⟨l₀, r₀, h₀⟩ := encryptText_setBlock he 0 ct l r
  obtain ⟨l₁, r₁, h₁⟩ := encryptText_setBlock he 1 (encryptWords s 0 ct) l₀ r₀
  obtain ⟨l₂, r₂, h₂⟩ := encryptText_setBlock he 2 (encryptWords s 1 (encryptWords s 0 ct)) l₁ r₁
  refine ⟨l₂, r₂, ?_⟩
  rw [textPass, h₀, andThen_next, h₁, andThen_next, h₂]
  rfl

theorem iterate_textPass_setBlock (n : Nat) (ct : Vector Word 6) (l r : Word) :
    ∃ l' r', iterate textPass n (ct, s.setBlock l r) = .next ((encryptPass s)^[n] ct, s.setBlock l' r') := by
  induction n generalizing ct l r with
  | zero => exact ⟨l, r, rfl⟩
  | succ n ih =>
    obtain ⟨l₁, r₁, hpass⟩ := textPass_setBlock he ct l r
    obtain ⟨l', r', hrest⟩ := ih (encryptPass s ct) l₁ r₁
    refine ⟨l', r', ?_⟩
    rw [iterate, hpass, andThen_next, hrest, Function.iterate_succ_apply]

end Passes

/-! ### The computation after the input checks -/

/-- The text after all passes, under the P and S of `s`. -/
def cipherText (s : State) : Vector Word 6 := (encryptPass s)^[Config.outputPasses] plaintext

theorem cipherText_congr {s t : State} (hp : s.p = t.p) (hs : s.sbox = t.sbox) : cipherText s = cipherText t := by
  rw [cipherText, encryptPass_congr hp hs, cipherText]

/-- The core as the host leaves it: wiped or not (93_implementation_defined.md I6). -/
def State.leftBy (hostWipes : Bool) (s : State) : State := if hostWipes then s.clearData else s

theorem leftBy_err (hostWipes : Bool) (s : State) : (s.leftBy hostWipes).err = s.err := by
  cases hostWipes <;> rfl

theorem issue_wipe_if {s : State} (he : s.err = false) (hostWipes : Bool) :
    issue (if hostWipes then [.wipe] else []) s = .next (s.leftBy hostWipes) := by
  cases hostWipes with
  | false => rfl
  | true => exact issue_singleton_of_exec (exec_wipe_of_err_false he)

theorem endCheck_of_err_false {s : State} (he : s.err = false) (ct : Vector Word 6) :
    endCheck ct s = .ok (outputOf ct) := by
  obtain ⟨hfields, -⟩ := statusWordFields
  obtain ⟨herr, -⟩ := hfields s
  have hbit : (s.output .status).getLsbD 0 = false := by
    rw [State.output, BitVec.getLsbD, Nat.testBit_zero, herr, he]
    rfl
  rw [endCheck, hbit]
  rfl

/-- The whole computation: the key setup, the encrypted text under the P and S it leaves, and the core with only its
block register used since, then wiped or not. -/
theorem bcryptCompute_eq_next (key : List Byte) (salt : Vector Byte 16) (cost : Nat) {s : State}
    (he : s.err = false) :
    ∃ u l r, issue (eksSetup cost salt (keyPrime key)) s = .next u ∧ u.err = false ∧
      ∀ w, bcryptCompute w key salt cost s =
        .next (.ok (outputOf (cipherText u)), (u.setBlock l r).leftBy w) := by
  obtain ⟨-, u, hsetup, herr, -⟩ := setupKeepsErrClear _ cost salt (keyPrime key) s he
  obtain ⟨l, r, htext⟩ := iterate_textPass_setBlock herr Config.outputPasses plaintext u.bl u.br
  have herr' : (u.setBlock l r).err = false := herr
  have hu : u.setBlock u.bl u.br = u := rfl
  refine ⟨u, l, r, hsetup, herr, fun w => ?_⟩
  rw [hu] at htext
  simp only [bcryptCompute, hsetup, andThen_next, htext, issue_wipe_if herr', endCheck_of_err_false herr']
  rfl

/-- Settles O58: the two computations differ in the WIPE after the last read, and the passes write the block only. -/
theorem wipingChangesOnlyTheStateLeft : Obligations.WipingChangesOnlyTheStateLeft := by
  intro key salt cost s he
  obtain ⟨u, l, r, hsetup, -, hcompute⟩ := bcryptCompute_eq_next key salt cost he
  exact ⟨_, u.setBlock l r, u, hcompute false, hcompute true, hsetup, rfl, rfl⟩

/-! ### bcrypt_hash -/

section Checks

variable (w : Bool) {key salt : List Byte} {cost : Nat} (s : State)

theorem bcryptHash_of_key_gt (hkey : key.length > 72) :
    bcryptHash w key salt cost s = .next (.error .invalidKeyLength, s) :=
  if_pos hkey

variable (hkey : key.length ≤ 72)
include hkey

theorem bcryptHash_of_salt_ne (hsalt : salt.length ≠ 16) :
    bcryptHash w key salt cost s = .next (.error .invalidSaltLength, s) := by
  rw [bcryptHash, if_neg (Nat.not_lt.mpr hkey), dif_neg hsalt]

theorem bcryptHash_of_cost (hsalt : salt.length = 16) (hcost : cost < 4 ∨ cost > 31) :
    bcryptHash w key salt cost s = .next (.error .invalidCost, s) := by
  rw [bcryptHash, if_neg (Nat.not_lt.mpr hkey), dif_pos hsalt, if_pos hcost]

theorem bcryptHash_of_valid (hsalt : salt.length = 16) (hcost : ¬ (cost < 4 ∨ cost > 31)) :
    bcryptHash w key salt cost s = bcryptCompute w key ⟨salt.toArray, hsalt⟩ cost s := by
  rw [bcryptHash, if_neg (Nat.not_lt.mpr hkey), dif_pos hsalt, if_neg hcost]

end Checks

/-- Settles O55, check by check in the order of rule R151. -/
theorem inputChecksComeFirstInOrder : Obligations.InputChecksComeFirstInOrder := fun w _ _ _ s =>
  ⟨fun hkey => bcryptHash_of_key_gt w s hkey,
    fun hkey hsalt => bcryptHash_of_salt_ne w s hkey hsalt,
    fun hkey hsalt hcost => bcryptHash_of_cost w s hkey hsalt hcost,
    fun hkey hsalt hmin hmax => bcryptHash_of_valid w s hkey hsalt (by omega)⟩

/-- The 23 bytes are there: six words give 24. -/
theorem length_outputOf (ct : Vector Word 6) : (outputOf ct).length = 23 := by
  simp [outputOf, bytesBE, Config.outputBytes]

/-- Settles O56: valid inputs go on to the computation, which ends with the text's first 23 bytes. -/
theorem bcryptReturnsTwentyThreeBytes : Obligations.BcryptReturnsTwentyThreeBytes := by
  intro w key salt cost s hkey hsalt hmin hmax he
  have hvalid := bcryptHash_of_valid w s hkey hsalt (cost := cost) (by omega)
  obtain ⟨u, l, r, -, herr, hcompute⟩ := bcryptCompute_eq_next key ⟨salt.toArray, hsalt⟩ cost he
  exact ⟨_, _, hvalid.trans (hcompute w), length_outputOf _, (leftBy_err w _).trans herr⟩

/-- Everything bcrypt_hash can do: refuse its inputs, whatever the core, or go on to the computation. -/
theorem bcryptHash_cases (w : Bool) (key salt : List Byte) (cost : Nat) :
    (∃ e, ∀ s, bcryptHash w key salt cost s = .next (.error e, s)) ∨
    ∃ h : salt.length = 16, ∀ s, bcryptHash w key salt cost s = bcryptCompute w key ⟨salt.toArray, h⟩ cost s := by
  rcases Nat.lt_or_ge 72 key.length with hlong | hkey
  · exact .inl ⟨_, fun s => bcryptHash_of_key_gt w s hlong⟩
  · by_cases hsalt : salt.length = 16
    · by_cases hcost : cost < 4 ∨ cost > 31
      · exact .inl ⟨_, fun s => bcryptHash_of_cost w s hkey hsalt hcost⟩
      · exact .inr ⟨hsalt, fun s => bcryptHash_of_valid w s hkey hsalt hcost⟩
    · exact .inl ⟨_, fun s => bcryptHash_of_salt_ne w s hkey hsalt⟩

/-- The computation's result does not depend on the core it starts from: the setup's P and S do not. -/
theorem bcryptCompute_result_eq (w : Bool) (key : List Byte) (salt : Vector Byte 16) (cost : Nat) {s s' : State}
    (he : s.err = false) (he' : s'.err = false) :
    ∃ r t t', bcryptCompute w key salt cost s = .next (r, t) ∧ bcryptCompute w key salt cost s' = .next (r, t') := by
  obtain ⟨u, _, _, hsetup, -, hcompute⟩ := bcryptCompute_eq_next key salt cost he
  obtain ⟨u', _, _, hsetup', -, hcompute'⟩ := bcryptCompute_eq_next key salt cost he'
  obtain ⟨v, v', hv, hv', hp, hs, -⟩ := setupForgetsTheOldState _ cost salt (keyPrime key) s s' he he'
  obtain rfl : u = v := Host.Outcome.next.inj (hsetup.symm.trans hv)
  obtain rfl : u' = v' := Host.Outcome.next.inj (hsetup'.symm.trans hv')
  rw [cipherText_congr hp hs] at hcompute
  exact ⟨_, _, _, hcompute w, hcompute' w⟩

/-- Settles O57: a refusal does not look at the core, and the computation's result does not depend on it. -/
theorem bcryptOutputDependsOnInputsAlone : Obligations.BcryptOutputDependsOnInputsAlone := by
  intro w key salt cost s s' he he'
  rcases bcryptHash_cases w key salt cost with ⟨e, hrefused⟩ | ⟨hsalt, hcomputed⟩
  · exact ⟨.error e, s, s', hrefused s, hrefused s'⟩
  · rw [hcomputed s, hcomputed s']
    exact bcryptCompute_result_eq w key ⟨salt.toArray, hsalt⟩ cost he he'

end Sys2Proof.Machine
end

