-- ==== Sys2Proof/Proofs/Precedence.lean ====
section
/-! The order of precedence of the CommandError codes (60_exceptions.md rule R201): the columns of the opcode map (rule
R73) as sets of OP values, and Check through them. -/

namespace Sys2Proof.Machine

/-! ### The columns of the opcode map -/

/-- The two reserved OP values (rule R75). -/
theorem ofCode_eq_none_iff (c : BitVec 4) : Op.ofCode c = none ↔ c.toNat = 0xE ∨ c.toNat = 0xF := by
  revert c
  decide

theorem usesBox_eq_false_iff (o : Op) : o.row.usesBox = false ↔ o.row.code.toNat ∉ [0xA, 0xB, 0xD] := by
  cases o <;> decide

/-! ### The tests of rule R201, from the last to the first -/

/-- The tests on IDX: that it is 0 where the row does not use it, its range, its alignment. -/
theorem checkIdx_eq (o : Op) (idx : BitVec 8) :
    o.checkIdx idx =
      if idx.toNat ≠ 0 ∧ o.row.code.toNat ∉ [0x7, 0x8, 0x9, 0xC, 0xA, 0xB, 0xD] then .reservedField
      else if o.row.code.toNat ∈ [0x7, 0x8, 0xC] ∧ idx.toNat > 17 then .indexRange
      else if o.row.code.toNat = 0x9 ∧ idx.toNat > 16 then .indexRange
      else if o.row.code.toNat ∈ [0x9, 0xB] ∧ idx.toNat % 2 = 1 then .indexAlign
      else .noError := by
  cases o
  case wrs | rds | sts =>
    rw [checkIdx_of_maxIdx_255 rfl]
    simp [Op.row]
  all_goals simp [Op.checkIdx, Op.row]

/-- The tests on RSV and BOX, for a CMD with a row's OP. -/
theorem check_of_ofCode {cmd : Word} {o : Op} (ho : Op.ofCode (opField cmd) = some o) :
    check cmd =
      if cmd.toNat / 2 ^ 10 % 2 ^ 18 ≠ 0 then .reservedField
      else if cmd.toNat / 2 ^ 8 % 2 ^ 2 ≠ 0 ∧ o.row.code.toNat ∉ [0xA, 0xB, 0xD] then .reservedField
      else o.checkIdx (idxField cmd) := by
  simp only [check, ho, ← rsvField_toNat, ← boxField_toNat, ← usesBox_eq_false_iff, ne_eq, BitVec.toNat_eq,
    BitVec.ofNat_eq_ofNat, BitVec.toNat_zero]

/-- Settles O3: a reserved OP fails the first test, and a row's OP goes through the tests on RSV, BOX and IDX. -/
theorem checkFollowsPrecedence : Obligations.CheckFollowsPrecedence := by
  intro cmd
  dsimp only
  rw [← opField_toNat, ← idxField_toNat]
  cases ho : Op.ofCode (opField cmd) with
  | none =>
    rw [if_pos ((ofCode_eq_none_iff _).mp ho), check, ho]
    rfl
  | some o =>
    have hop : ¬((opField cmd).toNat = 0xE ∨ (opField cmd).toNat = 0xF) := by
      rw [← ofCode_eq_none_iff, ho]
      exact Option.some_ne_none o
    rw [if_neg hop, check_of_ofCode ho, checkIdx_eq, ofCode_eq_some ho]
    simp only [apply_ite codeNumber, apply_ite BitVec.toNat]
    rfl

end Sys2Proof.Machine
end

