-- ==== Sys2Proof/Proofs/Errors.lean ====
section
/-! Taking a CommandError, the stuck state after it, and reset (60_exceptions.md rules R202 to R206,
70_reset_and_hazards.md rule R230). -/

namespace Sys2Proof.Machine

/-- Settles O10: the step executes the transaction, which raises the error of its check. -/
theorem commandErrorWritesOnlyStatus : Obligations.CommandErrorWritesOnlyStatus := by
  intro s t rest hp he hc
  rw [step_of_port_transaction hp, execute_of_check_ne hc]
  simp [he, State.raiseError]

/-- Settles O11, by the block on every command step. -/
theorem errorBlocksEveryCommand : Obligations.ErrorBlocksEveryCommand := fun _ he =>
  ⟨execute_of_err he, exec_of_err he⟩

/-! ### The stuck state -/

/-- With ERR = 1, an input without reset is used up and does nothing else. -/
theorem acceptInput_of_err {s : State} (he : s.err = true) {h : HostInput} (hr : h.reset = false) :
    acceptInput h s = .next s := by
  obtain ⟨reset, command⟩ := h
  obtain rfl : reset = false := hr
  cases command with
  | none => rfl
  | some t => exact execute_of_err he t

theorem step_of_err {s : State} (he : s.err = true) (hp : s.noResetPending) :
    step s = .next { s with port := s.port.drop 1 } := by
  match hport : s.port with
  | [] => rw [step_of_port_nil hport, List.drop_nil, ← hport]
  | h :: rest =>
    have hr : h.reset = false := hp h (hport ▸ List.mem_cons_self)
    exact (step_of_port_cons hport).trans (acceptInput_of_err (s := { s with port := rest }) he hr)

theorem noResetPending_drop {s : State} (hp : s.noResetPending) (n : Nat) :
    State.noResetPending { s with port := s.port.drop n } :=
  fun h hmem => hp h (List.mem_of_mem_drop hmem)

/-- A run from the stuck state without a reset uses up the inputs it takes, and does nothing else. -/
theorem run_of_err (n : Nat) {s : State} (he : s.err = true) (hp : s.noResetPending) :
    core.run n s = .next { s with port := s.port.drop n } := by
  induction n generalizing s with
  | zero => rfl
  | succ n ih =>
    have hrest := ih (s := { s with port := s.port.drop 1 }) he (noResetPending_drop hp 1)
    rw [run_succ_of_step (step_of_err he hp), hrest, List.drop_drop, Nat.add_comm 1 n]

/-- Settles O12, by what a run from the stuck state answers. -/
theorem firstErrorStandsUntilReset : Obligations.FirstErrorStandsUntilReset := fun n _ _ he hp h =>
  Host.Outcome.next.inj (h.symm.trans (run_of_err n he hp))

/-! ### Reset -/

/-- Settles O13: waiting and a blocked command keep ERR, so of all a step can do only a reset is left. -/
theorem onlyResetClearsTheError : Obligations.OnlyResetClearsTheError := by
  intro s t h he ht
  rcases step_cases h with ⟨-, rfl⟩ | ⟨c, rest, hp, -⟩ | ⟨_, -, rfl⟩ | ⟨tr, rest, -, hexec⟩
  · cases he.symm.trans ht
  · exact ⟨c, rest, hp⟩
  · cases he.symm.trans ht
  · obtain rfl : { s with port := rest } = t :=
      Host.Outcome.next.inj ((execute_of_err (s := { s with port := rest }) he tr).symm.trans hexec)
    cases he.symm.trans ht

/-- Settles O19: the input taken asserts reset, whose answer does not look at the command. -/
theorem resetWinsOverThePresentedCommand : Obligations.ResetWinsOverThePresentedCommand := fun _ _ _ hp =>
  step_of_port_cons hp

end Sys2Proof.Machine
end

