-- ==== Sys2Proof/Proofs/Reset.lean ====
section
/-! INIT right after reset (70_reset_and_hazards.md rule R232). -/

namespace Sys2Proof.Machine

/-- After reset, P and S are the tables INIT loads (the first sentence of rule R232). -/
theorem loadTables_reset : State.reset.loadTables = State.reset := rfl

/-- Settles O20: with ERR = 0 after reset, INIT loads the tables, which P and S already equal. -/
theorem initAfterResetChangesNothing : Obligations.InitAfterResetChangesNothing :=
  (exec_init_of_err_false rfl).trans (congrArg Host.Outcome.next loadTables_reset)

end Sys2Proof.Machine
end
